-- ==== Sys2Proof/Word.lean ====
section
/-! DEFINITION. The byte, the one word of the machine (00_scope.md R8), and the Address pair (R9). -/

namespace Sys2Proof

/-- A register slot, a Memory byte, a Storage byte, an opcode or a parameter: an unsigned number
0..255 (00_scope.md R8). -/
abbrev Byte := BitVec 8

/-- An Address: two bytes, the high one first (00_scope.md R9). The number it stands for is
`Machine.wordToNumber`. -/
structure Address where
  high : Byte
  low  : Byte
deriving DecidableEq, Repr

end Sys2Proof
end

