-- ==== Sys2Proof/Syntax.lean ====
section
/-! DEFINITION. The whole instruction set as one inductive type, a constructor for each row of
spec/opcode_table.json (30_encoding.md R104), with its operand types; and the Program Image that the host loads
(00_scope.md R18). -/

namespace Sys2Proof

/-- The thirteen register slots, in the order of their ordinals (10_state.md R21). -/
inductive Reg where
  | a | b | pch | pcl | sp | mph | mpl | sth | stl | rph | rpl | slp | wrap
deriving DecidableEq, Repr

/-- The operand of `GET` and `SET` (30_encoding.md R107): a slot, or a parameter that names none. -/
inductive RegRef where
  | slot (r : Reg)
  /-- an ordinal 13..255: reads 0, writes dropped (10_state.md R28, R29) -/
  | absent (n : Byte)
deriving DecidableEq, Repr

/-- One instruction. An instruction of parameter kind N has no operand: every parameter byte is the same
instruction (30_encoding.md R113; log entry 9). -/
inductive Instr where
  /-- opcode byte 0, the reserved value (30_encoding.md R110; log entry 7) -/
  | zero
  | nop
  | const (p : Byte)
  | get (r : RegRef)
  | set (r : RegRef)
  | add
  | sub
  | mul
  | div
  | and
  | or
  | xor
  | jump (l : Byte)
  | jeq (l : Byte)
  | jneq (l : Byte)
  | jgt (l : Byte)
  | jgte (l : Byte)
  | jlt (l : Byte)
  | jlte (l : Byte)
  | rtn
  | sleep (n : Byte)
  | mget (n : Byte)
  | mset (n : Byte)
  | sget (n : Byte)
  | sset (n : Byte)
  | clear (c : Byte)
  | draw (c : Byte)
  | shade
  | btn (n : Byte)
  | btnd (n : Byte)
  | tone
  | send
  | recv
  | pin (k : Byte)
  | pout (k : Byte)
  | save
  | load
  | tile
  | sprite
  | icon
  | print
deriving DecidableEq, Repr

/-- The forty mnemonics of 30_encoding.md R104: the enumeration a token of the Program Image draws on. The reserved
value `ZERO` is no member: the assembler never emits opcode byte 0 (R110). -/
inductive Mnemonic where
  | nop | const | get | set | add | sub | mul | div | and | or | xor
  | jump | jeq | jneq | jgt | jgte | jlt | jlte | rtn | sleep
  | mget | mset | sget | sset
  | clear | draw | shade | btn | btnd | tone | send | recv | pin | pout | save | load
  | tile | sprite | icon | print
deriving DecidableEq, Repr

/-- A token: opcode and parameter (30_encoding.md R100). -/
structure Token where
  op    : Mnemonic
  param : Byte
deriving DecidableEq, Repr

/-- `LBL`, the label table: a partial map from label id to Address (10_state.md R43), as a list of pairs of which
the first with an id counts (log entry 15). -/
abbrev LabelTable := List (Byte × Address)

/-- The Program Image as far as the engine reads it (00_scope.md R6, R18): `author`, `icons` and `cutout` are read
by no rule and are out of scope. -/
structure Image where
  name    : String
  storage : List Byte
  labels  : LabelTable
  tokens  : List Token
deriving DecidableEq, Repr

end Sys2Proof
end

