-- ==== Sys2Proof/Config.lean ====
section
/-! DEFINITION. The parameters of the core (00_scope.md R7), as a record. The values this hardware takes are
`Sys2Proof.Machine.params` (Machine/Parameters.lean). The spec gives every result a value, so there is no free value here
(log entry 1). -/

namespace Sys2Proof

/-- `OPERAND_ORDER`: which popped value is the left operand of `SUB`, `DIV` and the ordered comparisons
(92_eei_decisions.md D6). -/
inductive OperandOrder where
  /-- the second-from-top `b` is the left operand -/
  | bOpA
  /-- the top `a` is the left operand -/
  | aOpB
deriving DecidableEq, Repr

/-- The parameters of 00_scope.md R7 that a rule of the step, the decoder or the encoder reads. -/
structure Config where
  /-- `OPC`: each mnemonic with its opcode byte (92_eei_decisions.md D3) -/
  opc          : List (Byte × Mnemonic)
  /-- `REGORD`: each slot with its ordinal (92_eei_decisions.md D4) -/
  regord       : List (Byte × Reg)
  /-- `NLABEL`: a lookup of a label id from here on finds no entry (92_eei_decisions.md D12) -/
  nlabel       : Nat
  memSize      : Nat
  stoSize      : Nat
  wrapMod      : Nat
  div0         : Nat
  high         : Byte
  low          : Byte
  operandOrder : OperandOrder
  videoW       : Nat
deriving DecidableEq, Repr

/-- The named regions of Memory (20_memory.md R66). -/
inductive Region where
  | stack | btns | audio | icons | timer | sstate | spins | video | savew | image
deriving DecidableEq, Repr

/-- What the address decoder answers for an address (20_memory.md R68). -/
inductive Place where
  /-- inside a named region -/
  | named (g : Region)
  /-- `NONE`: a byte of Memory that no region covers (20_memory.md R67) -/
  | plain
  /-- `OUTSIDE`: not an address of Memory -/
  | outside
deriving DecidableEq, Repr

end Sys2Proof
end

