-- ==== Sys2Proof/Machine/Parameters.lean ====
section
/-! DEFINITION. The values this hardware takes for the parameters of 00_scope.md R7 (log entry 1). -/

namespace Sys2Proof.Machine

/-- The opcode rows of 30_encoding.md R104, 0x01..0x14. -/
def opcodeRowsCore : List (Byte × Mnemonic) :=
  [(0x01, .nop), (0x02, .const), (0x03, .get), (0x04, .set), (0x05, .add), (0x06, .sub), (0x07, .mul), (0x08, .div),
   (0x09, .and), (0x0A, .or), (0x0B, .xor), (0x0C, .jump), (0x0D, .jeq), (0x0E, .jneq), (0x0F, .jgt), (0x10, .jgte),
   (0x11, .jlt), (0x12, .jlte), (0x13, .rtn), (0x14, .sleep)]

/-- The opcode rows of 30_encoding.md R104, 0x15..0x28. -/
def opcodeRowsAccess : List (Byte × Mnemonic) :=
  [(0x15, .mget), (0x16, .mset), (0x17, .sget), (0x18, .sset), (0x19, .clear), (0x1A, .draw), (0x1B, .shade),
   (0x1C, .btn), (0x1D, .btnd), (0x1E, .tone), (0x1F, .send), (0x20, .recv), (0x21, .pin), (0x22, .pout),
   (0x23, .save), (0x24, .load), (0x25, .tile), (0x26, .sprite), (0x27, .icon), (0x28, .print)]

/-- The register ordinals (10_state.md R21). -/
def registerRows : List (Byte × Reg) :=
  [(0, .a), (1, .b), (2, .pch), (3, .pcl), (4, .sp), (5, .mph), (6, .mpl), (7, .sth), (8, .stl), (9, .rph), (10, .rpl),
   (11, .slp), (12, .wrap)]

/-- 00_scope.md R7: `OPC` (D3), `REGORD` (D4), `NLABEL` (D12), `MEM_SIZE`, `STO_SIZE`, `WRAP_MOD` (D7), `DIV0` (D11),
`HIGH` and `LOW` (D19), `OPERAND_ORDER` (D6) and `VIDEO_W`. -/
abbrev params : Config where
  opc := opcodeRowsCore ++ opcodeRowsAccess
  regord := registerRows
  nlabel := 256
  memSize := 3200
  stoSize := 65536
  wrapMod := 255
  div0 := 255
  high := 255
  low := 0
  operandOrder := .bOpA
  videoW := 32

end Sys2Proof.Machine
end

