-- ==== Sys2Proof/WellFormed.lean ====
section
/-! DEFINITION. Which terms of the syntax stand for something the hardware has: one check on instructions (the
operand that names no slot) and one on Program Images (the label table is a map). Every other operand is a byte, and
every byte is legal (30_encoding.md R103, R105). -/

namespace Sys2Proof

/-- `absent n` stands for a byte that is no slot's ordinal, 13..255 (10_state.md R21). -/
def RegRef.wf : RegRef → Bool
  | .slot _ => true
  | .absent n => Machine.params.regord.all (fun row => row.1 != n)

/-- An instruction is well-formed when its register operand is (30_encoding.md R107). -/
def Instr.wf : Instr → Bool
  | .get r | .set r => r.wf
  | .zero | .nop | .const _ | .add | .sub | .mul | .div | .and | .or | .xor
  | .jump _ | .jeq _ | .jneq _ | .jgt _ | .jgte _ | .jlt _ | .jlte _ | .rtn | .sleep _
  | .mget _ | .mset _ | .sget _ | .sset _ | .clear _ | .draw _ | .shade | .btn _ | .btnd _ | .tone
  | .send | .recv | .pin _ | .pout _ | .save | .load | .tile | .sprite | .icon | .print => true

/-- The ids rise strictly, so the table is a map (10_state.md R43). -/
def LabelTable.wf : LabelTable → Bool
  | [] => true
  | [_] => true
  | p :: q :: t => decide (p.1.toNat < q.1.toNat) && LabelTable.wf (q :: t)

/-- A Program Image is well-formed when its label table is a map. Over-long contents are legal: the load drops
what does not fit (70_reset_and_hazards.md R282). -/
def Image.wf (im : Image) : Bool := LabelTable.wf im.labels

end Sys2Proof
end

