-- ==== Sys2Proof/Decode.lean ====
section
/-! DEFINITION. The decoder, total on any bytes (30_encoding.md R103), and the encoder. Both read the parameters `OPC` and
`REGORD` (00_scope.md R7), so other tables can be substituted in Machine/Parameters.lean alone. -/

namespace Sys2Proof
open Machine (params)

/-! ## The register ordinals -/

/-- From ordinal to slot, by `REGORD` (10_state.md R21). -/
def Reg.ofOrdinal (n : Byte) : Option Reg := (params.regord.find? (fun row => row.1 == n)).map (·.2)

/-- From slot to ordinal, by `REGORD` (10_state.md R21). -/
def Reg.ordinal (r : Reg) : Byte := ((params.regord.find? (fun row => row.2 == r)).map (·.1)).getD 0

/-- Kind R: the parameter as a register operand (30_encoding.md R107). -/
def RegRef.ofParam (p : Byte) : RegRef :=
  match Reg.ofOrdinal p with
  | some r => .slot r
  | none => .absent p

/-- The parameter byte of a register operand. -/
def RegRef.param : RegRef → Byte
  | .slot r => r.ordinal
  | .absent n => n

/-! ## The opcode map, read by the decoder -/

/-- The mnemonic an opcode byte is assigned to by `OPC`, if any (30_encoding.md R104). -/
def Mnemonic.ofOpcode (o : Byte) : Option Mnemonic :=
  (params.opc.find? (fun row => row.1 == o)).map (·.2)

/-- The instruction a mnemonic and a parameter byte stand for; what the parameter denotes depends on the opcode alone
(30_encoding.md R105). -/
def Mnemonic.instr (m : Mnemonic) (p : Byte) : Instr :=
  match m with
  | .nop => .nop
  | .const => .const p
  | .get => .get (RegRef.ofParam p)
  | .set => .set (RegRef.ofParam p)
  | .add => .add
  | .sub => .sub
  | .mul => .mul
  | .div => .div
  | .and => .and
  | .or => .or
  | .xor => .xor
  | .jump => .jump p
  | .jeq => .jeq p
  | .jneq => .jneq p
  | .jgt => .jgt p
  | .jgte => .jgte p
  | .jlt => .jlt p
  | .jlte => .jlte p
  | .rtn => .rtn
  | .sleep => .sleep p
  | .mget => .mget p
  | .mset => .mset p
  | .sget => .sget p
  | .sset => .sset p
  | .clear => .clear p
  | .draw => .draw p
  | .shade => .shade
  | .btn => .btn p
  | .btnd => .btnd p
  | .tone => .tone
  | .send => .send
  | .recv => .recv
  | .pin => .pin p
  | .pout => .pout p
  | .save => .save
  | .load => .load
  | .tile => .tile
  | .sprite => .sprite
  | .icon => .icon
  | .print => .print

/-! ## The decoder -/

/-- Why bytes are no instruction of the table. -/
inductive Reject where
  /-- fewer than two bytes; a fetch never meets it -/
  | truncated
  /-- an unassigned opcode byte, 0x29..0xFF (30_encoding.md R111); the cycle runs it as a no-op -/
  | unassigned (opcode : Byte)
deriving DecidableEq, Repr

/-- `decode(o, p)` (30_encoding.md R103). -/
def decodeToken (o p : Byte) : Except Reject Instr :=
  if o = 0 then .ok .zero
  else match Mnemonic.ofOpcode o with
    | some m => .ok (m.instr p)
    | none => .error (.unassigned o)

/-- The decoder on a stream of bytes in Storage order: the first token and the bytes after it (30_encoding.md R100,
R101). -/
def decode : List Byte → Except Reject (Instr × List Byte)
  | o :: p :: rest =>
    match decodeToken o p with
    | .ok i => .ok (i, rest)
    | .error e => .error e
  | _ => .error .truncated

/-- The instruction the decoder reads from a token word numbered as spec/opcode_table.json numbers it: the 16-bit
number `256*opcode + param`, whose high byte is stored first (30_encoding.md R102, R65; log entry 11). -/
def decodeTableWord (nbits w : Nat) : Option Instr :=
  let v := w % 2 ^ nbits
  match decode [BitVec.ofNat 8 (v / 256), BitVec.ofNat 8 v] with
  | .ok (i, _) => some i
  | .error _ => none

/-! ## The encoder -/

/-- The opcode byte `OPC` gives a mnemonic (30_encoding.md R104). -/
def Mnemonic.ordinal (m : Mnemonic) : Byte := ((params.opc.find? (fun row => row.2 == m)).map (·.1)).getD 0

/-- The two bytes of an instruction, opcode first (30_encoding.md R101); an instruction of kind N gets parameter 0, as
the assembler emits it (R113). -/
def encode : Instr → List Byte
  | .zero => [0, 0]
  | .nop => [Mnemonic.nop.ordinal, 0]
  | .const p => [Mnemonic.const.ordinal, p]
  | .get r => [Mnemonic.get.ordinal, r.param]
  | .set r => [Mnemonic.set.ordinal, r.param]
  | .add => [Mnemonic.add.ordinal, 0]
  | .sub => [Mnemonic.sub.ordinal, 0]
  | .mul => [Mnemonic.mul.ordinal, 0]
  | .div => [Mnemonic.div.ordinal, 0]
  | .and => [Mnemonic.and.ordinal, 0]
  | .or => [Mnemonic.or.ordinal, 0]
  | .xor => [Mnemonic.xor.ordinal, 0]
  | .jump l => [Mnemonic.jump.ordinal, l]
  | .jeq l => [Mnemonic.jeq.ordinal, l]
  | .jneq l => [Mnemonic.jneq.ordinal, l]
  | .jgt l => [Mnemonic.jgt.ordinal, l]
  | .jgte l => [Mnemonic.jgte.ordinal, l]
  | .jlt l => [Mnemonic.jlt.ordinal, l]
  | .jlte l => [Mnemonic.jlte.ordinal, l]
  | .rtn => [Mnemonic.rtn.ordinal, 0]
  | .sleep n => [Mnemonic.sleep.ordinal, n]
  | .mget n => [Mnemonic.mget.ordinal, n]
  | .mset n => [Mnemonic.mset.ordinal, n]
  | .sget n => [Mnemonic.sget.ordinal, n]
  | .sset n => [Mnemonic.sset.ordinal, n]
  | .clear c => [Mnemonic.clear.ordinal, c]
  | .draw c => [Mnemonic.draw.ordinal, c]
  | .shade => [Mnemonic.shade.ordinal, 0]
  | .btn n => [Mnemonic.btn.ordinal, n]
  | .btnd n => [Mnemonic.btnd.ordinal, n]
  | .tone => [Mnemonic.tone.ordinal, 0]
  | .send => [Mnemonic.send.ordinal, 0]
  | .recv => [Mnemonic.recv.ordinal, 0]
  | .pin k => [Mnemonic.pin.ordinal, k]
  | .pout k => [Mnemonic.pout.ordinal, k]
  | .save => [Mnemonic.save.ordinal, 0]
  | .load => [Mnemonic.load.ordinal, 0]
  | .tile => [Mnemonic.tile.ordinal, 0]
  | .sprite => [Mnemonic.sprite.ordinal, 0]
  | .icon => [Mnemonic.icon.ordinal, 0]
  | .print => [Mnemonic.print.ordinal, 0]

/-- The bytes of a token as the load serialises it: `OPC(opcode)`, then the parameter (30_encoding.md R132). -/
def Token.bytes (t : Token) : List Byte := [t.op.ordinal, t.param]

/-- The serialised token list: token `i` at bytes `2i` and `2i + 1` (30_encoding.md R132). -/
def serialize (ts : List Token) : List Byte := ts.flatMap Token.bytes

end Sys2Proof
end

