-- ==== Sys2Proof/Machine/MemoryMap.lean ====
section
/-! DEFINITION. The Memory map and the address decoder (20_memory.md R66 to R68). -/

namespace Sys2Proof.Machine

/-- The first address of a region (20_memory.md R66). -/
def regionAddr : Region → Nat
  | .stack => 0
  | .btns => 512
  | .audio => 520
  | .icons => 524
  | .timer => 526
  | .sstate => 528
  | .spins => 544
  | .video => 640
  | .savew => 1152
  | .image => 1408

/-- The length of a region in bytes (20_memory.md R66). -/
def regionLen : Region → Nat
  | .stack => 256
  | .btns => 3
  | .audio => 2
  | .icons => 1
  | .timer => 1
  | .sstate => 2
  | .spins => 16
  | .video => 512
  | .savew => 256
  | .image => 512

/-- The regions in the order of the map (20_memory.md R66). -/
def regions : List Region :=
  [.stack, .btns, .audio, .icons, .timer, .sstate, .spins, .video, .savew, .image]

/-- Whether an address lies in a region. -/
def inRegion (g : Region) (addr : Nat) : Bool :=
  decide (regionAddr g ≤ addr ∧ addr < regionAddr g + regionLen g)

/-- `Region(addr)`, the address decoder: a name and nothing else (20_memory.md R68). -/
def decodeAddress (addr : Nat) : Place :=
  if addr < params.memSize then
    match regions.find? (fun g => inRegion g addr) with
    | some g => .named g
    | none => .plain
  else .outside

/-- The regions an agent outside the core may write: the buttons, the timer byte and the two serial regions
(20_memory.md R66 last column, R78; 92_eei_decisions.md D27). -/
def externallyWritten : Region → Bool
  | .btns | .timer | .sstate | .spins => true
  | .stack | .audio | .icons | .video | .savew | .image => false

end Sys2Proof.Machine
end

