-- ==== Sys2Proof/Machine/Pairs.lean ====
section
/-! DEFINITION. The two conversions between an Address pair and its number, `wordToNumber` and `numberToWord`
(00_scope.md R9). -/

namespace Sys2Proof.Machine

/-- `W(h, l) = 256*h + l` (00_scope.md R9). -/
def wordToNumber (w : Address) : Nat := 256 * w.high.toNat + w.low.toNat

/-- `numberToWord(n) = (H(n), L(n))`, with `H(n) = (n div 256) mod 256` and `L(n) = n mod 256` (00_scope.md R9). -/
def numberToWord (n : Nat) : Address := ⟨BitVec.ofNat 8 (n / 256), BitVec.ofNat 8 n⟩

end Sys2Proof.Machine
end

