-- ==== Sys2Proof/Machine/State.lean ====
section
/-! DEFINITION. The state of the machine as plain data (10_state.md R51), the state after power-on (10_state.md R50), and
the reasons a step could stop (there is none that the spec gives). -/

namespace Sys2Proof.Machine

/-- The register file: thirteen 8-bit slots (10_state.md R20, R21). -/
structure Regs where
  a    : Byte
  b    : Byte
  pch  : Byte
  pcl  : Byte
  sp   : Byte
  mph  : Byte
  mpl  : Byte
  sth  : Byte
  stl  : Byte
  rph  : Byte
  rpl  : Byte
  slp  : Byte
  wrap : Byte
deriving DecidableEq, Repr

/-- Every slot 0 (10_state.md R50). -/
def Regs.zero : Regs := ⟨0, 0, 0, 0, 0, 0, 0, 0, 0, 0, 0, 0, 0⟩

/-- A byte-addressed space, Memory or Storage: the bytes that differ from the reset contents 0, by rising address
(10_state.md R41, R42, R50; log entry 16). -/
abbrev Memory := List Host.Cell

/-- `STORE`: the map from program name to a window of 256 bytes, by rising name (10_state.md R47; log entry 18). -/
abbrev DurableStore := List (String × List Byte)

/-- `RUN`, the engine state (10_state.md R45). -/
inductive RunState where
  | stopped | running
deriving DecidableEq, Repr

/-- One turn of one agent, between two cycles or the cycle itself (20_memory.md R78; 60_exceptions.md R266). The turns
of the agents that only read, the renderer and the audio driver, would change nothing and are left out (log entry
20). -/
inductive Turn where
  /-- the engine: one cycle, if it is running (40_cycle_and_dispatch.md R152) -/
  | engine
  /-- the host: `loadProgram(image)` (60_exceptions.md R267) -/
  | loadProgram (image : Image)
  /-- the host: `run()` (60_exceptions.md R268) -/
  | run
  /-- the host: `pause()` (60_exceptions.md R269) -/
  | pause
  /-- the host: `reset()` (60_exceptions.md R270) -/
  | reset
  /-- the platform: the power goes and comes back, between two cycles (60_exceptions.md R272, 70_reset_and_hazards.md
  R280; log entry 27) -/
  | powerCycle
  /-- the input driver writes the byte of button `k` (60_exceptions.md R263) -/
  | button (k : Fin 3) (v : Byte)
  /-- the platform timer writes the tick byte (60_exceptions.md R260) -/
  | timer (v : Byte)
  /-- the serial device reads `SDAT` and frees the line, when `SSTAT = 1` (45_peripheral_instructions.md R230) -/
  | serialTake
  /-- the serial device puts a byte on a free line, when `SSTAT = 0` (45_peripheral_instructions.md R230) -/
  | serialGive (v : Byte)
  /-- the serial device writes `SDAT` alone (20_memory.md R79) -/
  | serialData (v : Byte)
  /-- the serial device writes pin `k` (45_peripheral_instructions.md R230) -/
  | pin (k : Fin 16) (v : Byte)
deriving DecidableEq, Repr

/-- The complete state (10_state.md R51), with the model's own `agenda` (log entry 2). -/
structure State where
  /-- `x[0..12]` -/
  regs   : Regs
  /-- `Mem[0..3199]` -/
  mem    : Memory
  /-- `Sto[0..65535]` -/
  sto    : Memory
  /-- `RUN` -/
  run    : RunState
  /-- `LBL` -/
  labels : LabelTable
  /-- `NAME` -/
  name   : String
  /-- `STORE` -/
  store  : DurableStore
  /-- the turns the agents are still to take, the next one first; when it is empty the engine has the turn -/
  agenda : List Turn
deriving DecidableEq, Repr

/-- Right after power-on (10_state.md R50, 70_reset_and_hazards.md R281). The empty durable store is the model's choice
(log entry 5), and so is the empty agenda (log entry 2); a later power-on keeps the store it finds
(`State.powerCycleCall`). -/
def State.reset : State where
  regs := Regs.zero
  mem := []
  sto := []
  run := .stopped
  labels := []
  name := ""
  store := []
  agenda := []

/-- The three kinds of cycle (00_scope.md R17; 40_cycle_and_dispatch.md R140). They are names, not state. -/
inductive CycleKind where
  | stall
  | originReset
  | executed (opcode param : Byte)
deriving DecidableEq, Repr

/-- The faults of the machine: none. The core raises no exception and has no error channel (60_exceptions.md R250), so
no meaning can end in a fault (log entry 22). -/
inductive Fault where
deriving DecidableEq, Repr

/-- The reasons the model itself has for giving an instruction no meaning. -/
inductive Refusal where
  /-- raised by an arm of `exec` whose instruction has no meaning yet; safe. No arm raises it. -/
  | notModelled (mnemonic : String)
deriving DecidableEq, Repr

end Sys2Proof.Machine
end

