-- ==== Sys2Proof/Machine/Ops.lean ====
section
/-! DEFINITION. The named operations every rule is written in: bytes of Memory and Storage, raw register access, the
program counter and the other pairs, the stack, the regions, the label table, the durable store, the fetch and the
origin reset (the one trap-like event; there is no exception to take, 60_exceptions.md R250, R255). -/

namespace Sys2Proof.Machine

/-! ## A byte-addressed space as a list of cells -/

/-- What an address that is not listed reads as: every byte is 0 after reset (10_state.md R50). -/
def unlisted : Byte := 0

/-- The byte at an address. -/
def Memory.read : Memory → Nat → Byte
  | [], _ => unlisted
  | (k, v) :: t, a => if k = a then v else Memory.read t a

/-- The cells of a block of bytes at consecutive addresses, less those that need not be listed. -/
def blockCells : Nat → List Byte → Memory
  | _, [] => []
  | a, v :: vs => if v = unlisted then blockCells (a + 1) vs else (a, v) :: blockCells (a + 1) vs

/-- Write a block of bytes at consecutive addresses. The canonical form is kept. -/
def Memory.writeBlock (m : Memory) (a : Nat) (vs : List Byte) : Memory :=
  m.filter (fun c => decide (c.1 < a)) ++ (blockCells a vs ++ m.filter (fun c => decide (a + vs.length ≤ c.1)))

/-- Write one byte. -/
def Memory.write (m : Memory) (a : Nat) (v : Byte) : Memory := Memory.writeBlock m a [v]

/-- The bytes at `n` consecutive addresses. -/
def Memory.readBlock (m : Memory) (a n : Nat) : List Byte := (List.range n).map (fun k => Memory.read m (a + k))

/-! ## Raw register access: `x[r]` and `x[r] <- v` (00_scope.md R10) -/

/-- A slot of the register file. -/
def Regs.get (g : Regs) : Reg → Byte
  | .a => g.a
  | .b => g.b
  | .pch => g.pch
  | .pcl => g.pcl
  | .sp => g.sp
  | .mph => g.mph
  | .mpl => g.mpl
  | .sth => g.sth
  | .stl => g.stl
  | .rph => g.rph
  | .rpl => g.rpl
  | .slp => g.slp
  | .wrap => g.wrap

/-- The register file with one slot written. -/
def Regs.set (g : Regs) (r : Reg) (v : Byte) : Regs :=
  match r with
  | .a => { g with a := v }
  | .b => { g with b := v }
  | .pch => { g with pch := v }
  | .pcl => { g with pcl := v }
  | .sp => { g with sp := v }
  | .mph => { g with mph := v }
  | .mpl => { g with mpl := v }
  | .sth => { g with sth := v }
  | .stl => { g with stl := v }
  | .rph => { g with rph := v }
  | .rpl => { g with rpl := v }
  | .slp => { g with slp := v }
  | .wrap => { g with wrap := v }

/-- `x[r]`, the raw read (00_scope.md R10). -/
def State.raw (s : State) (r : Reg) : Byte := s.regs.get r

/-- `x[r] <- v`, the raw write (00_scope.md R10). -/
def State.setRaw (s : State) (r : Reg) (v : Byte) : State := { s with regs := s.regs.set r v }

/-! ## The four pairs (10_state.md R22) -/

/-- The number in a pair of slots, high slot first. -/
def State.pair (s : State) (high low : Reg) : Nat := wordToNumber ⟨s.raw high, s.raw low⟩

/-- Write an Address into a pair of slots, raw. -/
def State.setPair (s : State) (high low : Reg) (w : Address) : State := (s.setRaw high w.high).setRaw low w.low

/-- `pc`, a token index (10_state.md R24). -/
def State.pc (s : State) : Nat := s.pair .pch .pcl

/-- `mp`, the Memory base address (10_state.md R35). -/
def State.mp (s : State) : Nat := s.pair .mph .mpl

/-- `stp`, the Storage base address (10_state.md R36). -/
def State.stp (s : State) : Nat := s.pair .sth .stl

/-- `rp`, the return pointer (10_state.md R37). -/
def State.rp (s : State) : Nat := s.pair .rph .rpl

/-- `pc <- n` (00_scope.md R10). -/
def State.setPc (s : State) (n : Nat) : State := s.setPair .pch .pcl (numberToWord n)

/-- The advance of step 5 of the cycle: `pc <- (pc + 1) mod 65536` (40_cycle_and_dispatch.md R140, R144). -/
def State.advance (s : State) : State := s.setPc ((s.pc + 1) % 65536)

/-- The origin reset: `pc <- 0` and nothing else (40_cycle_and_dispatch.md R143, 60_exceptions.md R255). -/
def State.originReset (s : State) : State := s.setPc 0

/-- `rp <- pc` (43_control_transfer.md R190). -/
def State.saveReturn (s : State) : State := s.setPair .rph .rpl ⟨s.raw .pch, s.raw .pcl⟩

/-- `pc <- rp` (43_control_transfer.md R198). -/
def State.restoreReturn (s : State) : State := s.setPair .pch .pcl ⟨s.raw .rph, s.raw .rpl⟩

/-! ## Guarded access to Memory and Storage (20_memory.md R62, R63) -/

/-- `MemRead(addr, 1)`. -/
def State.memRead (s : State) (addr : Nat) : Byte :=
  if addr < params.memSize then Memory.read s.mem addr else 0

/-- `MemWrite(addr, 1, v)`: dropped outside Memory. -/
def State.memWrite (s : State) (addr : Nat) (v : Byte) : State :=
  if addr < params.memSize then { s with mem := Memory.write s.mem addr v } else s

/-- `StoRead(addr)`. -/
def State.stoRead (s : State) (addr : Nat) : Byte :=
  if addr < params.stoSize then Memory.read s.sto addr else 0

/-- `StoWrite(addr, v)`: dropped outside Storage. -/
def State.stoWrite (s : State) (addr : Nat) (v : Byte) : State :=
  if addr < params.stoSize then { s with sto := Memory.write s.sto addr v } else s

/-- A block of Storage written from an address on, what lies beyond Storage dropped (70_reset_and_hazards.md R282). -/
def State.stoWriteBlock (s : State) (addr : Nat) (vs : List Byte) : State :=
  { s with sto := Memory.writeBlock s.sto addr (vs.take (params.stoSize - addr)) }

/-! ## The stack (10_state.md R30 to R34) -/

/-- `Push(v)` (10_state.md R31). -/
def State.push (s : State) (v : Byte) : State := (s.memWrite (s.raw .sp).toNat v).setRaw .sp (s.raw .sp + 1)

/-- `Pop()`: the byte, and the state after it (10_state.md R32). -/
def State.pop (s : State) : Byte × State := (s.memRead (s.raw .sp - 1).toNat, s.setRaw .sp (s.raw .sp - 1))

/-- `Peek(k)` (10_state.md R33). No instruction uses it. -/
def State.peek (s : State) (k : Int) : Byte := s.memRead ((((s.raw .sp).toNat : Int) + k) % 256).toNat

/-! ## The regions (20_memory.md R69) -/

/-- `RegionRead(G, off)`: 0 beyond the region. -/
def State.regionRead (s : State) (g : Region) (off : Nat) : Byte :=
  if off < regionLen g then Memory.read s.mem (regionAddr g + off) else 0

/-- `RegionWrite(G, off, v)`: dropped beyond the region. -/
def State.regionWrite (s : State) (g : Region) (off : Nat) (v : Byte) : State :=
  if off < regionLen g then { s with mem := Memory.write s.mem (regionAddr g + off) v } else s

/-- A whole region read, in address order (20_memory.md R84). -/
def State.regionBytes (s : State) (g : Region) : List Byte := Memory.readBlock s.mem (regionAddr g) (regionLen g)

/-- A whole region written: the bytes given, then 0 up to the region's length (20_memory.md R84). -/
def State.regionFill (s : State) (g : Region) (vs : List Byte) : State :=
  { s with
    mem := Memory.writeBlock s.mem (regionAddr g) ((vs ++ List.replicate (regionLen g) 0).take (regionLen g)) }

/-! ## The label table and the durable store -/

/-- The entry of a label id, if there is one (10_state.md R43). -/
def LabelTable.find : LabelTable → Byte → Option Address
  | [], _ => none
  | (k, w) :: t, l => if k = l then some w else LabelTable.find t l

/-- A label's target: its entry among the first `NLABEL`, or `(0, 0)` (43_control_transfer.md R190; 00_scope.md R7). -/
def State.labelTarget (s : State) (l : Byte) : Address :=
  if l.toNat < params.nlabel then (LabelTable.find s.labels l).getD ⟨0, 0⟩ else ⟨0, 0⟩

/-- `get(name)` (20_memory.md R86). -/
def DurableStore.get : DurableStore → String → Option (List Byte)
  | [], _ => none
  | (k, w) :: t, n => if k = n then some w else DurableStore.get t n

/-- The order of names in the store, character by character. -/
def nameBefore (m n : String) : Bool := decide (m.toList < n.toList)

/-- `set(name, bytes)` (20_memory.md R86), the names kept rising. -/
def DurableStore.set (st : DurableStore) (n : String) (w : List Byte) : DurableStore :=
  st.filter (fun e => nameBefore e.1 n) ++ ((n, w) :: st.filter (fun e => nameBefore n e.1))

/-! ## The fetch (40_cycle_and_dispatch.md R140, steps 1, 2 and 5) -/

/-- The opcode byte of the token at `pc`; 0 beyond Storage (10_state.md R25). -/
def State.fetchOpcode (s : State) : Byte := s.stoRead (2 * s.pc)

/-- The parameter byte of the token at `pc`. -/
def State.fetchParam (s : State) : Byte := s.stoRead (2 * s.pc + 1)

/-- Place a token word where the next cycle fetches, awake, running, and with the turn the engine's; from a `pc`
beyond Storage execution is placed at token 0 (log entry 12). -/
def State.placeToken (s : State) (nbits w : Nat) : State :=
  let v := w % 2 ^ nbits
  let s := if s.pc < 32768 then s else s.setPc 0
  let s := (s.setRaw .slp 0).stoWriteBlock (2 * s.pc) [BitVec.ofNat 8 (v / 256), BitVec.ofNat 8 v]
  { s with run := .running, agenda := [] }

/-! ## What the agents that only read see -/

/-- The 512 video bytes the render hook receives (60_exceptions.md R271). -/
def State.videoBytes (s : State) : List Byte := s.regionBytes .video

/-- The frequency the audio driver polls (45_peripheral_instructions.md R226, 60_exceptions.md R264). -/
def State.toneFrequency (s : State) : Nat := wordToNumber ⟨s.regionRead .audio 0, s.regionRead .audio 1⟩

end Sys2Proof.Machine
end

