-- ==== Sys2Proof/Machine/Flags.lean ====
section
/-! DEFINITION. The one flag, `WRAP`, and the policy it selects (10_state.md R26, R27); the comparisons of the conditional
jumps, which leave no flag behind (10_state.md R39). -/

namespace Sys2Proof.Machine

/-- `Norm` for a value of the flag: the floored residue modulo `WRAP_MOD` in wrap mode, saturation to 0..255 in clamp
mode (10_state.md R27). -/
def normWith (wrap : Byte) (v : Int) : Byte :=
  if wrap ≠ 0 then BitVec.ofInt 8 (v % (params.wrapMod : Int))
  else if v < 0 then 0
  else if 255 < v then 255
  else BitVec.ofInt 8 v

/-- `Norm(v)`: the flag is read raw, now (10_state.md R27). -/
def State.norm (s : State) (v : Int) : Byte := normWith (s.raw .wrap) v

/-- The six comparisons of the conditional jumps, on unsigned bytes, left operand first (43_control_transfer.md R192 to
R197). -/
def cmpEq (x y : Byte) : Bool := decide (x = y)

def cmpNeq (x y : Byte) : Bool := decide (x ≠ y)

def cmpGt (x y : Byte) : Bool := decide (y.toNat < x.toNat)

def cmpGte (x y : Byte) : Bool := decide (y.toNat ≤ x.toNat)

def cmpLt (x y : Byte) : Bool := decide (x.toNat < y.toNat)

def cmpLte (x y : Byte) : Bool := decide (x.toNat ≤ y.toNat)

end Sys2Proof.Machine
end

