-- ==== Sys2Proof/Machine/Operands.lean ====
section
/-! DEFINITION. The operand forms: a register named by an instruction, read and written through `Norm`; a register
operand that may name no slot; the two stack operands; the effective address; the pixel offset; the logic levels. -/

namespace Sys2Proof.Machine

/-- `GetReg` of a slot (10_state.md R28). -/
def State.getReg (s : State) (r : Reg) : Byte := s.norm ((s.raw r).toNat : Int)

/-- `SetReg` of a slot; the flag is read before the write (10_state.md R29). -/
def State.setReg (s : State) (r : Reg) (v : Int) : State := s.setRaw r (s.norm v)

/-- `GetReg` of a register operand: 0 where it names no slot (10_state.md R28). -/
def State.getRef (s : State) : RegRef → Byte
  | .slot r => s.getReg r
  | .absent _ => 0

/-- `SetReg` of a register operand: dropped where it names no slot (10_state.md R29). -/
def State.setRef (s : State) (r : RegRef) (v : Int) : State :=
  match r with
  | .slot r => s.setReg r v
  | .absent _ => s

/-- The two stack operands: `a` (the former top), `b` (the former second-from-top), and the state after both pops
(00_scope.md R12). -/
def State.popTwo (s : State) : Byte × Byte × State :=
  let (a, s1) := s.pop
  let (b, s2) := s1.pop
  (a, b, s2)

/-- Left and right operand of the popped `a` and `b`, as `OPERAND_ORDER` says (42_arithmetic_and_bitwise.md R170). -/
def leftRight (a b : Byte) : Byte × Byte :=
  match params.operandOrder with
  | .bOpA => (b, a)
  | .aOpB => (a, b)

/-- `EA_mem = mp + p`, not reduced (44_memory_and_storage_access.md R210). -/
def State.eaMem (s : State) (p : Byte) : Nat := s.mp + p.toNat

/-- `EA_sto = stp + p`, not reduced (44_memory_and_storage_access.md R210). -/
def State.eaSto (s : State) (p : Byte) : Nat := s.stp + p.toNat

/-- The offset of a pixel in the video region, row-major (45_peripheral_instructions.md R222). -/
def pixelOffset (x y : Byte) : Nat := x.toNat + params.videoW * y.toNat

/-- `HIGH` or `LOW` (45_peripheral_instructions.md R224). -/
def level (c : Bool) : Byte := if c then params.high else params.low

end Sys2Proof.Machine
end

