-- ==== Sys2Proof/Machine/Access.lean ====
section
/-! DEFINITION. `MGET`, `MSET`, `SGET`, `SSET` (44_memory_and_storage_access.md R210 to R214). -/

namespace Sys2Proof.Machine

/-- `MGET n`: the read happens before the push (44_memory_and_storage_access.md R211). -/
def execMget (n : Byte) (s : State) : Host.Outcome State Fault Refusal := .next (s.push (s.memRead (s.eaMem n)))

/-- `MSET n` (44_memory_and_storage_access.md R212). -/
def execMset (n : Byte) (s : State) : Host.Outcome State Fault Refusal :=
  let (v, s1) := s.pop
  .next (s1.memWrite (s1.eaMem n) v)

/-- `SGET n` (44_memory_and_storage_access.md R213). -/
def execSget (n : Byte) (s : State) : Host.Outcome State Fault Refusal := .next (s.push (s.stoRead (s.eaSto n)))

/-- `SSET n` (44_memory_and_storage_access.md R214). -/
def execSset (n : Byte) (s : State) : Host.Outcome State Fault Refusal :=
  let (v, s1) := s.pop
  .next (s1.stoWrite (s1.eaSto n) v)

end Sys2Proof.Machine
end

