-- ==== Sys2Proof/Machine/Arithmetic.lean ====
section
/-! DEFINITION. The arithmetic and bitwise instructions (42_arithmetic_and_bitwise.md R170 to R177): one shape, seven
functions on mathematical integers. -/

namespace Sys2Proof.Machine

/-- The common shape: pop `a`, pop `b`, push `Norm(f(left, right))` (42_arithmetic_and_bitwise.md R170). -/
def State.binary (s : State) (f : Byte → Byte → Int) : State :=
  let (a, b, s2) := s.popTwo
  let (x, y) := leftRight a b
  s2.push (s2.norm (f x y))

/-- 42_arithmetic_and_bitwise.md R171 -/
def addResult (x y : Byte) : Int := (x.toNat : Int) + (y.toNat : Int)

/-- 42_arithmetic_and_bitwise.md R172 -/
def subResult (x y : Byte) : Int := (x.toNat : Int) - (y.toNat : Int)

/-- 42_arithmetic_and_bitwise.md R173 -/
def mulResult (x y : Byte) : Int := (x.toNat : Int) * (y.toNat : Int)

/-- The quotient rounded to nearest, halves upward; `DIV0` for a zero divisor (42_arithmetic_and_bitwise.md R174; log
entry 23). -/
def divResult (x y : Byte) : Int :=
  if y = 0 then (params.div0 : Int) else (((2 * x.toNat + y.toNat) / (2 * y.toNat) : Nat) : Int)

/-- 42_arithmetic_and_bitwise.md R175 -/
def andResult (x y : Byte) : Int := ((x &&& y).toNat : Int)

/-- 42_arithmetic_and_bitwise.md R176 -/
def orResult (x y : Byte) : Int := ((x ||| y).toNat : Int)

/-- 42_arithmetic_and_bitwise.md R177 -/
def xorResult (x y : Byte) : Int := ((x ^^^ y).toNat : Int)

/-- `ADD` (42_arithmetic_and_bitwise.md R171). -/
def execAdd (s : State) : Host.Outcome State Fault Refusal := .next (s.binary addResult)

/-- `SUB` (42_arithmetic_and_bitwise.md R172). -/
def execSub (s : State) : Host.Outcome State Fault Refusal := .next (s.binary subResult)

/-- `MUL` (42_arithmetic_and_bitwise.md R173). -/
def execMul (s : State) : Host.Outcome State Fault Refusal := .next (s.binary mulResult)

/-- `DIV` (42_arithmetic_and_bitwise.md R174). -/
def execDiv (s : State) : Host.Outcome State Fault Refusal := .next (s.binary divResult)

/-- `AND` (42_arithmetic_and_bitwise.md R175). -/
def execAnd (s : State) : Host.Outcome State Fault Refusal := .next (s.binary andResult)

/-- `OR` (42_arithmetic_and_bitwise.md R176). -/
def execOr (s : State) : Host.Outcome State Fault Refusal := .next (s.binary orResult)

/-- `XOR` (42_arithmetic_and_bitwise.md R177). -/
def execXor (s : State) : Host.Outcome State Fault Refusal := .next (s.binary xorResult)

end Sys2Proof.Machine
end

