-- ==== Sys2Proof/Machine/Control.lean ====
section
/-! DEFINITION. The jumps, the return and the sleep (43_control_transfer.md R190 to R199). -/

namespace Sys2Proof.Machine

/-- `TakeJump(l)`: save the advanced `pc`, load the label's Address, all raw (43_control_transfer.md R190). -/
def State.takeJump (s : State) (l : Byte) : State := s.saveReturn.setPair .pch .pcl (s.labelTarget l)

/-- A conditional jump: pop both operands, then jump if the comparison holds (43_control_transfer.md R192). -/
def State.jumpIf (s : State) (c : Byte → Byte → Bool) (l : Byte) : State :=
  let (a, b, s2) := s.popTwo
  let (x, y) := leftRight a b
  if c x y then s2.takeJump l else s2

/-- `JUMP l` (43_control_transfer.md R191). -/
def execJump (l : Byte) (s : State) : Host.Outcome State Fault Refusal := .next (s.takeJump l)

/-- `JEQ l` (43_control_transfer.md R192). -/
def execJeq (l : Byte) (s : State) : Host.Outcome State Fault Refusal := .next (s.jumpIf cmpEq l)

/-- `JNEQ l` (43_control_transfer.md R193). -/
def execJneq (l : Byte) (s : State) : Host.Outcome State Fault Refusal := .next (s.jumpIf cmpNeq l)

/-- `JGT l` (43_control_transfer.md R194). -/
def execJgt (l : Byte) (s : State) : Host.Outcome State Fault Refusal := .next (s.jumpIf cmpGt l)

/-- `JGTE l` (43_control_transfer.md R195). -/
def execJgte (l : Byte) (s : State) : Host.Outcome State Fault Refusal := .next (s.jumpIf cmpGte l)

/-- `JLT l` (43_control_transfer.md R196). -/
def execJlt (l : Byte) (s : State) : Host.Outcome State Fault Refusal := .next (s.jumpIf cmpLt l)

/-- `JLTE l` (43_control_transfer.md R197). -/
def execJlte (l : Byte) (s : State) : Host.Outcome State Fault Refusal := .next (s.jumpIf cmpLte l)

/-- `RTN`: `rp` itself is unchanged (43_control_transfer.md R198). -/
def execRtn (s : State) : Host.Outcome State Fault Refusal := .next s.restoreReturn

/-- `SLEEP n` (43_control_transfer.md R199). -/
def execSleep (n : Byte) (s : State) : Host.Outcome State Fault Refusal := .next (s.setReg .slp (n.toNat : Int))

end Sys2Proof.Machine
end

