-- ==== Sys2Proof/Machine/Idle.lean ====
section
/-! DEFINITION. The instructions that do nothing, the reserved value `ZERO`, the no-op of an unassigned opcode byte, and
the stall (40_cycle_and_dispatch.md R142, R143, R147, R148, R153; the stubs of 45_peripheral_instructions.md R243 to R246). -/

namespace Sys2Proof.Machine

/-- `ZERO`: the origin reset (40_cycle_and_dispatch.md R143, R153). -/
def execZero (s : State) : Host.Outcome State Fault Refusal := .next s.originReset

/-- `NOP`: nothing; the cycle has advanced `pc` (40_cycle_and_dispatch.md R147). -/
def execNop (s : State) : Host.Outcome State Fault Refusal := .next s

/-- `TILE`, a stub (45_peripheral_instructions.md R243). -/
def execTile (s : State) : Host.Outcome State Fault Refusal := .next s

/-- `SPRITE`, a stub (45_peripheral_instructions.md R244). -/
def execSprite (s : State) : Host.Outcome State Fault Refusal := .next s

/-- `ICON`, a stub: it does not write the icon bitmask (45_peripheral_instructions.md R245). -/
def execIcon (s : State) : Host.Outcome State Fault Refusal := .next s

/-- `PRINT`, a stub (45_peripheral_instructions.md R246). -/
def execPrint (s : State) : Host.Outcome State Fault Refusal := .next s

/-- An unassigned opcode byte, 0x29..0xFF: a no-op (40_cycle_and_dispatch.md R148). -/
def runUnassigned (s : State) : Host.Outcome State Fault Refusal := .next s

/-- The stall: the sleep counter one lower, raw (40_cycle_and_dispatch.md R142). -/
def State.stall (s : State) : State := s.setRaw .slp (s.raw .slp - 1)

end Sys2Proof.Machine
end

