-- ==== Sys2Proof/Machine/Moves.lean ====
section
/-! DEFINITION. `CONST`, `GET`, `SET` (41_stack_and_register_moves.md R160 to R163). -/

namespace Sys2Proof.Machine

/-- `CONST p`: the byte unchanged (41_stack_and_register_moves.md R160). -/
def execConst (p : Byte) (s : State) : Host.Outcome State Fault Refusal := .next (s.push p)

/-- `GET r`: the register is read before the push (41_stack_and_register_moves.md R161). -/
def execGet (r : RegRef) (s : State) : Host.Outcome State Fault Refusal := .next (s.push (s.getRef r))

/-- `SET r`: popped even when the write is dropped (41_stack_and_register_moves.md R162). -/
def execSet (r : RegRef) (s : State) : Host.Outcome State Fault Refusal :=
  let (v, s1) := s.pop
  .next (s1.setRef r (v.toNat : Int))

end Sys2Proof.Machine
end

