-- ==== Sys2Proof/Machine/Peripheral.lean ====
section
/-! DEFINITION. The peripheral instructions: display, buttons, audio, serial, persistence
(45_peripheral_instructions.md R221 to R242). Memory bytes are written unchanged; `Norm` applies only to the deposit in a
register (R220). -/

namespace Sys2Proof.Machine

/-! ## Display -/

/-- `CLEAR c`: the whole framebuffer in one cycle (45_peripheral_instructions.md R221). -/
def execClear (c : Byte) (s : State) : Host.Outcome State Fault Refusal :=
  .next (s.regionFill .video (List.replicate (regionLen .video) c))

/-- `DRAW c`: `y` on top, `x` below (45_peripheral_instructions.md R222). -/
def execDraw (c : Byte) (s : State) : Host.Outcome State Fault Refusal :=
  let (y, x, s2) := s.popTwo
  .next (s2.regionWrite .video (pixelOffset x y) c)

/-- `SHADE`: `y` on top, `x` below (45_peripheral_instructions.md R223). -/
def execShade (s : State) : Host.Outcome State Fault Refusal :=
  let (y, x, s2) := s.popTwo
  .next (s2.setReg .a ((s2.regionRead .video (pixelOffset x y)).toNat : Int))

/-! ## Buttons -/

/-- `BTN n`: HIGH for every state but 0 (45_peripheral_instructions.md R224). -/
def execBtn (n : Byte) (s : State) : Host.Outcome State Fault Refusal :=
  .next (s.setReg .a ((level (decide (s.regionRead .btns n.toNat ≠ 0))).toNat : Int))

/-- `BTND n`: HIGH for state 1, just pressed, alone (45_peripheral_instructions.md R225). -/
def execBtnd (n : Byte) (s : State) : Host.Outcome State Fault Refusal :=
  .next (s.setReg .a ((level (decide (s.regionRead .btns n.toNat = 1))).toNat : Int))

/-! ## Audio -/

/-- `TONE`: the low byte on top, the high byte below (45_peripheral_instructions.md R226). -/
def execTone (s : State) : Host.Outcome State Fault Refusal :=
  let (lo, hi, s2) := s.popTwo
  .next ((s2.regionWrite .audio 0 hi).regionWrite .audio 1 lo)

/-! ## Serial (the registers of 45_peripheral_instructions.md R230) -/

/-- `SDAT`, `Mem[528]`. -/
def State.sdat (s : State) : Byte := s.regionRead .sstate 0

/-- `SSTAT`, `Mem[529]`. -/
def State.sstat (s : State) : Byte := s.regionRead .sstate 1

/-- `SEND`: accepted on a free line, else the byte is discarded (45_peripheral_instructions.md R231). -/
def execSend (s : State) : Host.Outcome State Fault Refusal :=
  let (v, s1) := s.pop
  if s1.sstat = 0 then .next (((s1.regionWrite .sstate 0 v).regionWrite .sstate 1 1).setReg .a 255)
  else .next (s1.setReg .a 0)

/-- `RECV`: polls, never waits (45_peripheral_instructions.md R232). -/
def execRecv (s : State) : Host.Outcome State Fault Refusal :=
  if s.sstat = 2 then .next (((s.setReg .a (s.sdat.toNat : Int)).setReg .b 255).regionWrite .sstate 1 0)
  else .next (s.setReg .b 0)

/-- `PIN k` (45_peripheral_instructions.md R233). -/
def execPin (k : Byte) (s : State) : Host.Outcome State Fault Refusal :=
  .next (s.setReg .a ((s.regionRead .spins k.toNat).toNat : Int))

/-- `POUT k` (45_peripheral_instructions.md R234). -/
def execPout (k : Byte) (s : State) : Host.Outcome State Fault Refusal :=
  let (v, s1) := s.pop
  .next (s1.regionWrite .spins k.toNat v)

/-! ## Persistence -/

/-- `SAVE`: `set(NAME, window)` (45_peripheral_instructions.md R241). -/
def execSave (s : State) : Host.Outcome State Fault Refusal :=
  .next { s with store := DurableStore.set s.store s.name (s.regionBytes .savew) }

/-- `LOAD`: the stored window, or zeros (45_peripheral_instructions.md R242). -/
def execLoad (s : State) : Host.Outcome State Fault Refusal :=
  .next (s.regionFill .savew ((DurableStore.get s.store s.name).getD []))

end Sys2Proof.Machine
end

