-- ==== Sys2Proof/Machine/Dispatch.lean ====
section
/-! DEFINITION. One arm per instruction: `Dispatch(opc, par)` (40_cycle_and_dispatch.md R146), with the origin reset of
`ZERO` as an arm of its own (log entry 7). -/

namespace Sys2Proof.Machine

def exec (i : Instr) (s : State) : Host.Outcome State Fault Refusal :=
  match i with
  | .zero => Sys2Proof.Machine.execZero s
  | .nop => Sys2Proof.Machine.execNop s
  | .const p => Sys2Proof.Machine.execConst p s
  | .get r => Sys2Proof.Machine.execGet r s
  | .set r => Sys2Proof.Machine.execSet r s
  | .add => Sys2Proof.Machine.execAdd s
  | .sub => Sys2Proof.Machine.execSub s
  | .mul => Sys2Proof.Machine.execMul s
  | .div => Sys2Proof.Machine.execDiv s
  | .and => Sys2Proof.Machine.execAnd s
  | .or => Sys2Proof.Machine.execOr s
  | .xor => Sys2Proof.Machine.execXor s
  | .jump l => Sys2Proof.Machine.execJump l s
  | .jeq l => Sys2Proof.Machine.execJeq l s
  | .jneq l => Sys2Proof.Machine.execJneq l s
  | .jgt l => Sys2Proof.Machine.execJgt l s
  | .jgte l => Sys2Proof.Machine.execJgte l s
  | .jlt l => Sys2Proof.Machine.execJlt l s
  | .jlte l => Sys2Proof.Machine.execJlte l s
  | .rtn => Sys2Proof.Machine.execRtn s
  | .sleep n => Sys2Proof.Machine.execSleep n s
  | .mget n => Sys2Proof.Machine.execMget n s
  | .mset n => Sys2Proof.Machine.execMset n s
  | .sget n => Sys2Proof.Machine.execSget n s
  | .sset n => Sys2Proof.Machine.execSset n s
  | .clear c => Sys2Proof.Machine.execClear c s
  | .draw c => Sys2Proof.Machine.execDraw c s
  | .shade => Sys2Proof.Machine.execShade s
  | .btn n => Sys2Proof.Machine.execBtn n s
  | .btnd n => Sys2Proof.Machine.execBtnd n s
  | .tone => Sys2Proof.Machine.execTone s
  | .send => Sys2Proof.Machine.execSend s
  | .recv => Sys2Proof.Machine.execRecv s
  | .pin k => Sys2Proof.Machine.execPin k s
  | .pout k => Sys2Proof.Machine.execPout k s
  | .save => Sys2Proof.Machine.execSave s
  | .load => Sys2Proof.Machine.execLoad s
  | .tile => Sys2Proof.Machine.execTile s
  | .sprite => Sys2Proof.Machine.execSprite s
  | .icon => Sys2Proof.Machine.execIcon s
  | .print => Sys2Proof.Machine.execPrint s

end Sys2Proof.Machine
end

