-- ==== Sys2Proof/Machine/Environment.lean ====
section
/-! DEFINITION. What the agents outside the core do between cycles: the host's four calls (60_exceptions.md R266 to
R270), the power cycle (60_exceptions.md R272) and the drivers' writes to their own regions (20_memory.md R78, R79). -/

namespace Sys2Proof.Machine

/-! ## The host -/

/-- The load sequence (70_reset_and_hazards.md R282): the initial bytes first, the tokens over them, both from
address 0, what does not fit dropped. -/
def State.loadProgram (s : State) (im : Image) : State :=
  let cleared : State := { s with regs := Regs.zero, mem := [], sto := [] }
  let stored := (cleared.stoWriteBlock 0 im.storage).stoWriteBlock 0 (serialize im.tokens)
  { stored with labels := im.labels, name := im.name, run := .running }

/-- `run()` (60_exceptions.md R268). -/
def State.runCall (s : State) : State := { s with run := .running }

/-- `pause()` (60_exceptions.md R269). -/
def State.pauseCall (s : State) : State := { s with run := .stopped }

/-- `reset()`: registers and Memory to zero, the rest unchanged (70_reset_and_hazards.md R283). -/
def State.resetCall (s : State) : State := { s with regs := Regs.zero, mem := [] }

/-! ## The platform -/

/-- A power cycle: the engine is constructed anew, and the durable store persists (60_exceptions.md R272,
70_reset_and_hazards.md R281; 10_state.md R50, "whatever the durable store holds"). What the other agents still have to do
stays (log entry 27). -/
def State.powerCycleCall (s : State) : State := { State.reset with store := s.store, agenda := s.agenda }

/-! ## The serial device (45_peripheral_instructions.md R230; log entry 13) -/

/-- The device reads `SDAT` and frees the line. -/
def State.serialTake (s : State) : State := if s.sstat = 1 then s.regionWrite .sstate 1 0 else s

/-- The device puts a byte on a free line. -/
def State.serialGive (s : State) (v : Byte) : State :=
  if s.sstat = 0 then (s.regionWrite .sstate 0 v).regionWrite .sstate 1 2 else s

/-! ## One turn -/

/-- What a driver's turn writes (20_memory.md R78, R79). -/
def State.driven (s : State) : Turn → State
  | .button k v => s.regionWrite .btns k.val v
  | .timer v => s.regionWrite .timer 0 v
  | .serialTake => s.serialTake
  | .serialGive v => s.serialGive v
  | .serialData v => s.regionWrite .sstate 0 v
  | .pin k v => s.regionWrite .spins k.val v
  | .engine | .loadProgram _ | .run | .pause | .reset | .powerCycle => s

/-- A driver's turn: only while the engine runs, since no core state changes while it is stopped but by the host
(40_cycle_and_dispatch.md R152; log entry 26). -/
def State.drive (s : State) (d : Turn) : State :=
  match s.run with
  | .running => s.driven d
  | .stopped => s

/-- The turn of an agent outside the core. The engine's own turn is the cycle and stands in Machine/Cycle.lean. -/
def State.outsideTurn (s : State) (d : Turn) : State :=
  match d with
  | .engine => s
  | .loadProgram im => s.loadProgram im
  | .run => s.runCall
  | .pause => s.pauseCall
  | .reset => s.resetCall
  | .powerCycle => s.powerCycleCall
  | .button _ _ | .timer _ | .serialTake | .serialGive _ | .serialData _ | .pin _ _ => s.drive d

end Sys2Proof.Machine
end

