-- ==== Sys2Proof/Machine/Cycle.lean ====
section
/-! DEFINITION. The cycle (40_cycle_and_dispatch.md R140) and the order in which the agents take turns. -/

namespace Sys2Proof.Machine

/-- The kind of the cycle that starts in a state, by the spec's names (40_cycle_and_dispatch.md R140, R149). -/
def State.cycleKind (s : State) : CycleKind :=
  if s.raw .slp ≠ 0 then .stall
  else if s.fetchOpcode = 0 then .originReset
  else .executed s.fetchOpcode s.fetchParam

/-- Run what the decoder read. `ZERO` is met before the advance; every other token after it
(40_cycle_and_dispatch.md R140, steps 4 and 5). -/
def State.runToken (s : State) : Except Reject Instr → Host.Outcome State Fault Refusal
  | .ok .zero => exec .zero s
  | .ok i => exec i s.advance
  | .error _ => runUnassigned s.advance

/-- `Cycle()`: the stall test first, then the token at `pc` (40_cycle_and_dispatch.md R140). -/
def State.cycle (s : State) : Host.Outcome State Fault Refusal :=
  if s.raw .slp ≠ 0 then .next s.stall
  else s.runToken (decodeToken s.fetchOpcode s.fetchParam)

/-- The engine's turn: a cycle while running, nothing while stopped (40_cycle_and_dispatch.md R152; log entry 4). -/
def State.engineTurn (s : State) : Host.Outcome State Fault Refusal :=
  match s.run with
  | .running => s.cycle
  | .stopped => .next s

/-- The next turn of the agenda; the engine's when the agenda is empty (20_memory.md R78; log entry 2). A
driver's turn that comes while the engine is stopped is taken and changes nothing (40_cycle_and_dispatch.md R152; log
entry 26). -/
def State.takeTurn (s : State) : Host.Outcome State Fault Refusal :=
  match s.agenda with
  | [] => s.engineTurn
  | .engine :: rest => State.engineTurn { s with agenda := rest }
  | t :: rest => .next (State.outsideTurn { s with agenda := rest } t)

end Sys2Proof.Machine
end

