-- ==== Sys2Proof/Machine/Step.lean ====
section
/-! DEFINITION. One step: one turn of one agent (log entry 2); with an empty agenda, one cycle of the engine
(40_cycle_and_dispatch.md R140). -/

namespace Sys2Proof.Machine

/-- The step. -/
def step (s : State) : Host.Outcome State Fault Refusal := s.takeTurn

/-- The state with a token word of spec/opcode_table.json where the very next step fetches it (log entry 12). -/
def State.withFetchWord (s : State) (nbits w : Nat) : State := s.placeToken nbits w

end Sys2Proof.Machine
end

