-- ==== Sys2Proof/Machine/Assembler.lean ====
section
/-! DEFINITION. The assembler: source text to tokens and labels (30_encoding.md R120 to R131). It is software outside the
core; the label table that the jumps read is its product (00_scope.md R5). Text is a list of characters here; words and
names are strings of them. What neither D00 nor D35 settles is log entry 17. -/

namespace Sys2Proof.Machine

/-! ## Lines and words (30_encoding.md R120) -/

/-- The text up to and after each line break. -/
def splitLines : List Char → List (List Char)
  | [] => [[]]
  | c :: cs =>
    match splitLines cs with
    | [] => [[c]]
    | l :: ls => if c = '\n' then [] :: l :: ls else (c :: l) :: ls

/-- Blank, horizontal tab or carriage return. -/
def isBlank (c : Char) : Bool := c == ' ' || c == '\t' || c == '\r'

/-- The whitespace-separated words of a line. -/
def splitWords : List Char → List (List Char)
  | [] => []
  | c :: cs =>
    if isBlank c then splitWords cs
    else match cs with
      | [] => [[c]]
      | d :: _ =>
        if isBlank d then [c] :: splitWords cs
        else match splitWords cs with
          | [] => [[c]]
          | w :: ws => (c :: w) :: ws

/-- A comment line starts with `#`. -/
def isComment (l : List Char) : Bool := l.head? == some '#'

/-- The instruction token and, if present, the parameter token of a line; further words are ignored
(30_encoding.md R120). -/
structure SourceLine where
  op    : List Char
  param : Option (List Char)
deriving DecidableEq, Repr

/-- A line of source, or nothing for a comment or blank line. -/
def readLine (l : List Char) : Option SourceLine :=
  if isComment l then none
  else match splitWords l with
    | [] => none
    | [op] => some ⟨op, none⟩
    | op :: p :: _ => some ⟨op, some p⟩

/-- The lines that count, in order: their position is the line ordinal (30_encoding.md R121). -/
def sourceLines (text : List Char) : List SourceLine := (splitLines text).filterMap readLine

/-! ## Names -/

/-- The mnemonics as the source spells them (30_encoding.md R104, R124). -/
def mnemonicNames : List (List Char × Mnemonic) :=
  [("NOP".toList, .nop), ("CONST".toList, .const), ("GET".toList, .get), ("SET".toList, .set), ("ADD".toList, .add),
   ("SUB".toList, .sub), ("MUL".toList, .mul), ("DIV".toList, .div), ("AND".toList, .and), ("OR".toList, .or),
   ("XOR".toList, .xor), ("JUMP".toList, .jump), ("JEQ".toList, .jeq), ("JNEQ".toList, .jneq), ("JGT".toList, .jgt),
   ("JGTE".toList, .jgte), ("JLT".toList, .jlt), ("JLTE".toList, .jlte), ("RTN".toList, .rtn),
   ("SLEEP".toList, .sleep)] ++
  [("MGET".toList, .mget), ("MSET".toList, .mset), ("SGET".toList, .sget), ("SSET".toList, .sset),
   ("CLEAR".toList, .clear), ("DRAW".toList, .draw), ("SHADE".toList, .shade), ("BTN".toList, .btn),
   ("BTND".toList, .btnd), ("TONE".toList, .tone), ("SEND".toList, .send), ("RECV".toList, .recv),
   ("PIN".toList, .pin), ("POUT".toList, .pout), ("SAVE".toList, .save), ("LOAD".toList, .load),
   ("TILE".toList, .tile), ("SPRITE".toList, .sprite), ("ICON".toList, .icon), ("PRINT".toList, .print)]

/-- The register symbols (10_state.md R21; 30_encoding.md R127). -/
def registerNames : List (List Char × Reg) :=
  [("A".toList, .a), ("B".toList, .b), ("PCH".toList, .pch), ("PCL".toList, .pcl), ("SP".toList, .sp),
   ("MPH".toList, .mph), ("MPL".toList, .mpl), ("STH".toList, .sth), ("STL".toList, .stl), ("RPH".toList, .rph),
   ("RPL".toList, .rpl), ("SLP".toList, .slp), ("WRAP".toList, .wrap)]

/-- The first value recorded under a name. -/
def lookupName {α : Type} : List (List Char × α) → List Char → Option α
  | [], _ => none
  | (k, v) :: t, n => if k = n then some v else lookupName t n

/-- The opcode of a mnemonic; an unknown name becomes `NOP` (30_encoding.md R124). -/
def opcodeNamed (n : List Char) : Mnemonic := (lookupName mnemonicNames n).getD .nop

/-- The jump family, whose parameter is a label name (30_encoding.md R125). -/
def Mnemonic.isJump : Mnemonic → Bool
  | .jump | .jeq | .jneq | .jgt | .jgte | .jlt | .jlte => true
  | .nop | .const | .get | .set | .add | .sub | .mul | .div | .and | .or | .xor | .rtn | .sleep
  | .mget | .mset | .sget | .sset | .clear | .draw | .shade | .btn | .btnd | .tone | .send | .recv | .pin | .pout
  | .save | .load | .tile | .sprite | .icon | .print => false

/-! ## Numbers (30_encoding.md R128) -/

/-- The value of a string of decimal digits, after the value read so far. -/
def parseDigits (acc : Nat) : List Char → Option Nat
  | [] => some acc
  | c :: cs => if c.isDigit then parseDigits (10 * acc + (c.toNat - '0'.toNat)) cs else none

/-- An optionally signed decimal integer. -/
def parseInt : List Char → Option Int
  | [] => none
  | ['-'] => none
  | ['+'] => none
  | '-' :: cs => (parseDigits 0 cs).map (fun n => -(n : Int))
  | '+' :: cs => (parseDigits 0 cs).map (fun n => (n : Int))
  | cs => (parseDigits 0 cs).map (fun n => (n : Int))

/-- An integer reduced to a byte by the floored modulus 256. -/
def byteOfInt (v : Int) : Byte := BitVec.ofInt 8 v

/-! ## The definition pass (30_encoding.md R122) -/

/-- The constants, the one defined last first. -/
def definitions (lines : List SourceLine) : List (List Char × Int) :=
  lines.foldl (fun t l =>
    if l.op.head? == some '$' then (l.op, (l.param.bind parseInt).getD 0) :: t else t) []

/-! ## The emission pass (30_encoding.md R123 to R129) -/

/-- What the emission pass has built: the table, the names of the labels with the newest first, the count of label
lines, and the index of the current line. -/
structure Emission where
  labels : LabelTable
  names  : List (List Char × Byte)
  count  : Nat
  line   : Nat
deriving DecidableEq, Repr

/-- Record a label's Address under an id, over an earlier entry of that id, ids rising (30_encoding.md R123). -/
def LabelTable.record (t : LabelTable) (id : Byte) (w : Address) : LabelTable :=
  t.filter (fun e => decide (e.1.toNat < id.toNat)) ++ ((id, w) :: t.filter (fun e => decide (id.toNat < e.1.toNat)))

/-- The parameter byte of a token, in the order of 30_encoding.md R125; a missing parameter is 0 (R128). -/
def resolveParam (consts : List (List Char × Int)) (names : List (List Char × Byte)) (m : Mnemonic) :
    Option (List Char) → Byte
  | none => 0
  | some p =>
    match lookupName consts p with
    | some v => byteOfInt v
    | none =>
      if Mnemonic.isJump m then (lookupName names p).getD 0
      else match parseInt p with
        | some v => byteOfInt v
        | none => ((lookupName registerNames p).map Reg.ordinal).getD 0

/-- One line of the emission pass: its token and the table after it. -/
def emitLine (consts : List (List Char × Int)) (e : Emission) (l : SourceLine) : Token × Emission :=
  match l.op with
  | ':' :: label =>
    let id := BitVec.ofNat 8 e.count
    (⟨.nop, 0⟩,
     { labels := LabelTable.record e.labels id (numberToWord e.line)
       names := (label, id) :: e.names
       count := e.count + 1
       line := e.line + 1 })
  | op =>
    let m := opcodeNamed op
    (⟨m, resolveParam consts e.names m l.param⟩, { e with line := e.line + 1 })

/-- The emission pass over the lines. -/
def emitLines (consts : List (List Char × Int)) : Emission → List SourceLine → List Token × Emission
  | e, [] => ([], e)
  | e, l :: ls =>
    let (t, e1) := emitLine consts e l
    let (ts, e2) := emitLines consts e1 ls
    (t :: ts, e2)

/-- The assembler: tokens and labels, total, no error channel (30_encoding.md R130). -/
def assemble (text : List Char) : List Token × LabelTable :=
  let lines := sourceLines text
  let (ts, e) := emitLines (definitions lines) ⟨[], [], 0, 0⟩ lines
  (ts, e.labels)

/-- A Program Image from source text, under a name and with initial Storage bytes. -/
def assembleImage (name : String) (storage : List Byte) (source : String) : Image :=
  let (ts, ls) := assemble source.toList
  { name := name, storage := storage, labels := ls, tokens := ts }

end Sys2Proof.Machine
end

