-- ==== Sys2Proof/Safety.lean ====
section
/-! DEFINITION. The vocabulary of the statements: the canonical forms, the invariant of the machine, what is left
unchanged (the frame), and the spec's formulas written without the model's own operations. The core raises nothing
(60_exceptions.md R250), so every run is safe in the sense of never stopping; what the invariant adds is that the tables
stay what the spec says they are. -/

namespace Sys2Proof.Machine

/-! ## Canonical forms and the invariant -/

/-- The canonical form of a space: addresses rise strictly and no listed byte is the one an unlisted address reads
as. -/
abbrev Memory.wf (m : Memory) : Prop :=
  m.Pairwise (fun c d => c.1 < d.1) ∧ ∀ c ∈ m, c.2 ≠ unlisted

/-- Every listed address exists (10_state.md R41, R42). -/
abbrev Memory.within (size : Nat) (m : Memory) : Prop := ∀ c ∈ m, c.1 < size

/-- The durable store maps each name to exactly 256 bytes (10_state.md R47). -/
abbrev DurableStore.wf (st : DurableStore) : Prop :=
  st.Pairwise (fun e f => nameBefore e.1 f.1 = true) ∧ ∀ e ∈ st, e.2.length = 256

/-- A pending load carries a well-formed image. -/
def Turn.wf : Turn → Bool
  | .loadProgram im => im.wf
  | .engine | .run | .pause | .reset | .powerCycle | .button _ _ | .timer _ | .serialTake | .serialGive _ | .serialData _
  | .pin _ _ => true

/-- The invariant: Memory and Storage are canonical and inside their bounds, the label table is a map, the durable store
is a map to 256-byte windows, and so it stays with what the agenda will load. -/
structure State.Inv (s : State) : Prop where
  memCanonical : Memory.wf s.mem
  memBounded   : Memory.within 3200 s.mem
  stoCanonical : Memory.wf s.sto
  stoBounded   : Memory.within 65536 s.sto
  labelsMap    : LabelTable.wf s.labels = true
  storeMap     : DurableStore.wf s.store
  agendaWf     : ∀ t ∈ s.agenda, Turn.wf t = true

/-! ## The frame -/

/-- From `s` to `t` every slot but those of `rs`, every byte of Memory but those at `ms`, every byte of Storage but those
at `ss`, and every other piece of state is unchanged. -/
structure Frame (s t : State) (rs : List Reg) (ms ss : List Nat) : Prop where
  regs   : ∀ r, r ∉ rs → t.raw r = s.raw r
  mem    : ∀ a, a ∉ ms → t.memRead a = s.memRead a
  sto    : ∀ a, a ∉ ss → t.stoRead a = s.stoRead a
  run    : t.run = s.run
  labels : t.labels = s.labels
  name   : t.name = s.name
  store  : t.store = s.store
  agenda : t.agenda = s.agenda

/-! ## The spec's formulas -/

/-- `r` is `Norm(v)` in state `s`, written out (10_state.md R27). -/
def NormOf (s : State) (v : Int) (r : Byte) : Prop :=
  (s.raw .wrap = 0 → (r.toNat : Int) = max 0 (min 255 v)) ∧
  (s.raw .wrap ≠ 0 → (r.toNat : Int) = v % 255)

/-- The address of the top of the stack, `SP - 1` modulo 256 (10_state.md R33). -/
def State.topAddr (s : State) : Nat := (s.raw .sp - 1).toNat

/-- The address of the second-from-top, `SP - 2` modulo 256 (10_state.md R33). -/
def State.secondAddr (s : State) : Nat := (s.raw .sp - 2).toNat

/-- The address of the next free stack slot (10_state.md R30). -/
def State.freeAddr (s : State) : Nat := (s.raw .sp).toNat

/-- The byte on top of the stack, `Peek(-1)`. -/
def State.top (s : State) : Byte := s.memRead s.topAddr

/-- The second-from-top, `Peek(-2)`. -/
def State.second (s : State) : Byte := s.memRead s.secondAddr

/-- The opcode byte `o` with any parameter `p` is the instruction `f p` (30_encoding.md R104). -/
def Encodes (o : Byte) (f : Byte → Instr) : Prop := ∀ p, decodeToken o p = .ok (f p)

/-- What an instruction does that pops `a` and `b` and pushes `Norm(f(b, a))`: it answers a next state, the result
stands in the slot that held `b`, `SP` is one lower and nothing else changes (42_arithmetic_and_bitwise.md R170). -/
def PushesNormOf (i : Instr) (f : Nat → Nat → Int) : Prop :=
  ∀ s : State, ∃ t, exec i s = .next t ∧
    t.raw .sp = s.raw .sp - 1 ∧
    NormOf s (f s.second.toNat s.top.toNat) (t.memRead s.secondAddr) ∧
    Frame s t [.sp] [s.secondAddr] []

/-- What a conditional jump does: both operands popped; if the comparison of `b` with `a` holds, `rp` takes `pc` and `pc`
the label's entry or 0; nothing else changes (43_control_transfer.md R190, R192). -/
def JumpsWhen (i : Byte → Instr) (c : Nat → Nat → Prop) : Prop :=
  ∀ (s : State) (l : Byte), ∃ t, exec (i l) s = .next t ∧
    t.raw .sp = s.raw .sp - 2 ∧
    (c s.second.toNat s.top.toNat →
      t.rp = s.pc ∧ t.pc = ((LabelTable.find s.labels l).map wordToNumber).getD 0 ∧
      Frame s t [.sp, .pch, .pcl, .rph, .rpl] [] []) ∧
    (¬ c s.second.toNat s.top.toNat → Frame s t [.sp] [] [])

/-- The engine has the turn, an empty agenda or its turn at the head; `s'` is the state with that turn taken (log
entry 25). -/
def State.TurnTaken (s s' : State) : Prop :=
  (s.agenda = [] ∧ s' = s) ∨ ∃ rest, s.agenda = .engine :: rest ∧ s' = { s with agenda := rest }

/-- The engine has the turn and runs, `RUN = Running`. -/
def State.EngineTurn (s s' : State) : Prop := s.run = .running ∧ s.TurnTaken s'

/-- The region the driver whose turn it is may write, if the turn is a driver's (20_memory.md R78 and the last column of
R66). -/
def Turn.ownRegion : Turn → Option Region
  | .button _ _ => some .btns
  | .timer _ => some .timer
  | .serialTake | .serialGive _ | .serialData _ => some .sstate
  | .pin _ _ => some .spins
  | .engine | .loadProgram _ | .run | .pause | .reset | .powerCycle => none

/-- The instructions of parameter kind N, and the reserved value (30_encoding.md R105). -/
def ignoresParam : Instr → Bool
  | .zero | .nop | .add | .sub | .mul | .div | .and | .or | .xor | .rtn | .shade | .tone | .send | .recv | .save | .load
  | .tile | .sprite | .icon | .print => true
  | .const _ | .get _ | .set _ | .jump _ | .jeq _ | .jneq _ | .jgt _ | .jgte _ | .jlt _ | .jlte _ | .sleep _
  | .mget _ | .mset _ | .sget _ | .sset _ | .clear _ | .draw _ | .btn _ | .btnd _ | .pin _ | .pout _ => false

/-- The step that is a turn from outside answers a next state in which the listed addresses of Memory hold the listed
bytes, the turn is off the agenda and nothing else has changed. -/
def TurnWrites (s : State) (rest : List Turn) (ws : List (Nat × Byte)) : Prop :=
  ∃ t, step s = .next t ∧ (∀ w ∈ ws, t.memRead w.1 = w.2) ∧ Frame { s with agenda := rest } t [] (ws.map (·.1)) []

/-! ## Stack runs -/

/-- Push the values one after another. -/
def State.pushAll (s : State) (vs : List Byte) : State := vs.foldl State.push s

/-- Pop a number of values, in the order they come, and the state after. -/
def State.popMany : Nat → State → List Byte × State
  | 0, s => ([], s)
  | n + 1, s =>
    let (v, s1) := s.pop
    let (vs, s2) := State.popMany n s1
    (v :: vs, s2)

/-! ## Who may write what -/

/-- The slots an instruction may write while it is dispatched, as the table of 10_state.md R40 gives them. -/
def slotsWritten : Instr → List Reg
  | .zero | .rtn => [.pch, .pcl]
  | .nop | .clear _ | .save | .load | .tile | .sprite | .icon | .print => []
  | .const _ | .get _ | .mget _ | .sget _ => [.sp]
  | .set (.slot r) => [.sp, r]
  | .set (.absent _) => [.sp]
  | .add | .sub | .mul | .div | .and | .or | .xor => [.sp]
  | .jump _ => [.pch, .pcl, .rph, .rpl]
  | .jeq _ | .jneq _ | .jgt _ | .jgte _ | .jlt _ | .jlte _ => [.sp, .pch, .pcl, .rph, .rpl]
  | .sleep _ => [.slp]
  | .mset _ | .sset _ | .draw _ | .tone | .pout _ => [.sp]
  | .shade | .send => [.sp, .a]
  | .btn _ | .btnd _ | .pin _ => [.a]
  | .recv => [.a, .b]

/-- The address ranges of Memory, as first address and length, an instruction may write in a state, as the table of
20_memory.md R74 gives them. -/
def rangesWritten (s : State) : Instr → List (Nat × Nat)
  | .const _ | .get _ | .mget _ | .sget _ => [(s.freeAddr, 1)]
  | .add | .sub | .mul | .div | .and | .or | .xor => [(s.secondAddr, 1)]
  | .mset n => [(s.mp + n.toNat, 1)]
  | .clear _ | .draw _ => [(640, 512)]
  | .tone => [(520, 2)]
  | .send | .recv => [(528, 2)]
  | .pout _ => [(544, 16)]
  | .load => [(1152, 256)]
  | .zero | .nop | .set _ | .jump _ | .jeq _ | .jneq _ | .jgt _ | .jgte _ | .jlt _ | .jlte _ | .rtn | .sleep _
  | .sset _ | .shade | .btn _ | .btnd _ | .pin _ | .save | .tile | .sprite | .icon | .print => []

end Sys2Proof.Machine
end

