-- ==== Sys2Proof/Certificates/Slice0/Obligations.lean ====
section
/-! DEFINITION. The statements for the provers. Each docstring names the rule of spec/ it formalises; a clause the spec
itself derives, or that rests on a choice of the model, is said so. -/

open Sys2Proof Sys2Proof.Machine

/-! ## Reset and the host -/

/-- 70_reset_and_hazards.md R281, 60_exceptions.md R272: the constructed engine; running it is a fixed point (that clause
is the spec's own inference); a power cycle constructs it anew and the durable store persists. That the power cycle is an
entry of the agenda, which outlives it, is the model's (log entries 2 and 27). -/
def Obligations.PowerOnState : Prop :=
  (∀ r, State.reset.raw r = 0) ∧ (∀ a, State.reset.memRead a = 0) ∧ (∀ a, State.reset.stoRead a = 0) ∧
  (∀ l, LabelTable.find State.reset.labels l = none) ∧ State.reset.name = "" ∧ State.reset.run = .stopped ∧
  step State.reset.runCall = .next State.reset.runCall ∧
  ∀ (s : State) (rest : List Turn), s.agenda = .powerCycle :: rest →
    ∃ t, step s = .next t ∧ (∀ r, t.raw r = 0) ∧ (∀ a, t.memRead a = 0) ∧ (∀ a, t.stoRead a = 0) ∧
      (∀ l, LabelTable.find t.labels l = none) ∧ t.name = "" ∧ t.run = .stopped ∧
      (∀ n, DurableStore.get t.store n = DurableStore.get s.store n) ∧ t.agenda = rest

/-- 70_reset_and_hazards.md R282, 60_exceptions.md R267: `loadProgram`. That the durable store and the pending turns are
left alone is the model's (log entries 2 and 5). -/
def Obligations.LoadProgramInstallsImage : Prop :=
  ∀ (s : State) (im : Image) (rest : List Turn), s.agenda = .loadProgram im :: rest →
    ∃ t, step s = .next t ∧
      (∀ r, t.raw r = 0) ∧ (∀ a, t.memRead a = 0) ∧
      (∀ i (h : i < im.tokens.length), i < 32768 →
        t.stoRead (2 * i) = im.tokens[i].op.ordinal ∧ t.stoRead (2 * i + 1) = im.tokens[i].param) ∧
      (∀ a, 2 * im.tokens.length ≤ a → a < 65536 → t.stoRead a = im.storage.getD a 0) ∧
      t.labels = im.labels ∧ t.name = im.name ∧ t.run = .running ∧ t.store = s.store ∧ t.agenda = rest

/-- 70_reset_and_hazards.md R283, 60_exceptions.md R270: `reset()`. -/
def Obligations.HostResetClears : Prop :=
  ∀ (s : State) (rest : List Turn), s.agenda = .reset :: rest →
    ∃ t, step s = .next t ∧ (∀ r, t.raw r = 0) ∧ (∀ a, t.memRead a = 0) ∧
      (∀ a, t.stoRead a = s.stoRead a) ∧ t.labels = s.labels ∧ t.name = s.name ∧ t.run = s.run ∧
      t.store = s.store ∧ t.agenda = rest

/-- 60_exceptions.md R268, R269: `run()` and `pause()` change `RUN` alone; while it is stopped the
engine's turn is no cycle and changes nothing, and no step changes any state but one that is a call of the host or a power
cycle (40_cycle_and_dispatch.md R152). That the turns are entries of the agenda, and that one without effect is a step all
the same, is the model's (log entries 2, 4, 25, 26 and 27). -/
def Obligations.RunAndPause : Prop :=
  (∀ (s : State) (rest : List Turn), s.agenda = .run :: rest →
    step s = .next { s with run := .running, agenda := rest }) ∧
  (∀ (s : State) (rest : List Turn), s.agenda = .pause :: rest →
    step s = .next { s with run := .stopped, agenda := rest }) ∧
  (∀ s s' : State, s.TurnTaken s' → s.run = .stopped → step s = .next s') ∧
  (∀ s t : State, s.run = .stopped → step s = .next t →
    { t with agenda := s.agenda } = s ∨
      ∃ rest, s.agenda = .run :: rest ∨ s.agenda = .reset :: rest ∨ s.agenda = .powerCycle :: rest ∨
        ∃ im, s.agenda = .loadProgram im :: rest)

/-- 20_memory.md R78, R79, 45_peripheral_instructions.md R230: what a driver's turn writes, and where: no state but bytes
of the driver's own region, and of them the byte it names; and 40_cycle_and_dispatch.md R152: nothing while the engine is
stopped. That the turn is an entry of the agenda, and is taken while the engine is stopped, is the model's (log entries 2
and 26), and so is that the serial device's turn out of protocol does nothing (log entry 13). -/
def Obligations.DriversWriteOnlyTheirRegions : Prop :=
  (∀ (s : State) (d : Turn) (g : Region) (rest : List Turn), s.agenda = d :: rest → d.ownRegion = some g →
    externallyWritten g = true ∧ ∃ t, step s = .next t ∧
      (∀ r, t.raw r = s.raw r) ∧ (∀ a, t.stoRead a = s.stoRead a) ∧ t.run = s.run ∧ t.labels = s.labels ∧
      t.name = s.name ∧ t.store = s.store ∧ t.agenda = rest ∧
      (∀ a, t.memRead a ≠ s.memRead a → decodeAddress a = .named g)) ∧
  (∀ (s : State) (k : Fin 3) (v : Byte) (rest : List Turn), s.agenda = .button k v :: rest →
    s.run = .running → TurnWrites s rest [(512 + k.val, v)]) ∧
  (∀ (s : State) (v : Byte) (rest : List Turn), s.agenda = .timer v :: rest →
    s.run = .running → TurnWrites s rest [(526, v)]) ∧
  (∀ (s : State) (k : Fin 16) (v : Byte) (rest : List Turn), s.agenda = .pin k v :: rest →
    s.run = .running → TurnWrites s rest [(544 + k.val, v)]) ∧
  (∀ (s : State) (v : Byte) (rest : List Turn), s.agenda = .serialData v :: rest →
    s.run = .running → TurnWrites s rest [(528, v)]) ∧
  (∀ (s : State) (rest : List Turn), s.agenda = .serialTake :: rest → s.run = .running →
    (s.memRead 529 = 1 → TurnWrites s rest [(529, 0)]) ∧ (s.memRead 529 ≠ 1 → TurnWrites s rest [])) ∧
  (∀ (s : State) (v : Byte) (rest : List Turn), s.agenda = .serialGive v :: rest → s.run = .running →
    (s.memRead 529 = 0 → TurnWrites s rest [(528, v), (529, 2)]) ∧ (s.memRead 529 ≠ 0 → TurnWrites s rest [])) ∧
  (∀ (s : State) (d : Turn) (g : Region) (rest : List Turn), s.agenda = d :: rest → d.ownRegion = some g →
    s.run = .stopped → step s = .next { s with agenda := rest })

/-- 45_peripheral_instructions.md R230, 20_memory.md R79: a driver moves the serial status byte only from 1 to 0, which is
the serial device's taking a byte, and from 0 to 2, which is its giving one; and while the engine runs those two turns do
move it. While it is stopped nothing moves it (40_cycle_and_dispatch.md R152). That a driver's turn is an entry of the
agenda, that it is taken without effect while the engine is stopped, and that a turn out of protocol does nothing, is the
model's (log entries 2, 26 and 13). -/
def Obligations.SerialStatusTransitions : Prop :=
  ∀ (s : State) (d : Turn) (g : Region) (rest : List Turn), s.agenda = d :: rest → d.ownRegion = some g →
    ∃ t, step s = .next t ∧
      (t.memRead 529 = s.memRead 529 ∨ (d = .serialTake ∧ s.memRead 529 = 1 ∧ t.memRead 529 = 0) ∨
        (∃ v, d = .serialGive v ∧ s.memRead 529 = 0 ∧ t.memRead 529 = 2)) ∧
      (s.run = .running → d = .serialTake → s.memRead 529 = 1 → t.memRead 529 = 0) ∧
      (∀ v, s.run = .running → d = .serialGive v → s.memRead 529 = 0 → t.memRead 529 = 2) ∧
      (s.run = .stopped → t.memRead 529 = s.memRead 529)

/-! ## Registers, Memory, Storage, the stack -/

/-- 00_scope.md R9: the two conversions are exact inverses. -/
def Obligations.PairConversionsAreInverses : Prop :=
  (∀ n, n < 65536 → wordToNumber (numberToWord n) = n) ∧
  (∀ w, numberToWord (wordToNumber w) = w) ∧ (∀ w, wordToNumber w = 256 * w.high.toNat + w.low.toNat)

/-- 10_state.md R21, 30_encoding.md R107: the ordinals of the thirteen slots; 13 to 255 name none. -/
def Obligations.RegisterOrdinals : Prop :=
  (RegRef.ofParam 0 = .slot .a ∧ RegRef.ofParam 1 = .slot .b ∧ RegRef.ofParam 2 = .slot .pch ∧
   RegRef.ofParam 3 = .slot .pcl ∧ RegRef.ofParam 4 = .slot .sp ∧ RegRef.ofParam 5 = .slot .mph ∧
   RegRef.ofParam 6 = .slot .mpl ∧ RegRef.ofParam 7 = .slot .sth ∧ RegRef.ofParam 8 = .slot .stl ∧
   RegRef.ofParam 9 = .slot .rph ∧ RegRef.ofParam 10 = .slot .rpl ∧ RegRef.ofParam 11 = .slot .slp ∧
   RegRef.ofParam 12 = .slot .wrap) ∧
  ∀ n : Byte, 13 ≤ n.toNat → RegRef.ofParam n = .absent n

/-- 10_state.md R27: the clamp/wrap policy. -/
def Obligations.NormPolicy : Prop :=
  ∀ (s : State) (v : Int),
    (s.raw .wrap ≠ 0 → ((s.norm v).toNat : Int) = v % 255) ∧
    (s.raw .wrap = 0 → v < 0 → s.norm v = 0) ∧
    (s.raw .wrap = 0 → 255 < v → s.norm v = 255) ∧
    (s.raw .wrap = 0 → 0 ≤ v → v ≤ 255 → ((s.norm v).toNat : Int) = v)

/-- 10_state.md R28, R29: `GetReg` and `SetReg`, with an operand that names no slot. -/
def Obligations.GetRegAndSetReg : Prop :=
  ∀ (s : State) (p : Byte) (v : Int),
    (∀ r, RegRef.ofParam p = .slot r →
      NormOf s (s.raw r).toNat (s.getRef (.slot r)) ∧ NormOf s v ((s.setRef (.slot r) v).raw r) ∧
      Frame s (s.setRef (.slot r) v) [r] [] []) ∧
    (13 ≤ p.toNat → s.getRef (RegRef.ofParam p) = 0 ∧ s.setRef (RegRef.ofParam p) v = s)

/-- 20_memory.md R62, R63: the guarded reads and writes of Memory and Storage. -/
def Obligations.GuardedAccess : Prop :=
  ∀ (s : State) (a b : Nat) (v : Byte),
    (3200 ≤ a → s.memRead a = 0 ∧ s.memWrite a v = s) ∧
    (a < 3200 → (s.memWrite a v).memRead a = v ∧ Frame s (s.memWrite a v) [] [a] []) ∧
    (65536 ≤ b → s.stoRead b = 0 ∧ s.stoWrite b v = s) ∧
    (b < 65536 → (s.stoWrite b v).stoRead b = v ∧ Frame s (s.stoWrite b v) [] [] [b])

/-- 20_memory.md R69: region-relative accesses are guarded by the region's length. -/
def Obligations.RegionGuard : Prop :=
  ∀ (s : State) (g : Region) (off : Nat) (v : Byte),
    (off < regionLen g →
      s.regionRead g off = s.memRead (regionAddr g + off) ∧
      (s.regionWrite g off v).memRead (regionAddr g + off) = v ∧
      Frame s (s.regionWrite g off v) [] [regionAddr g + off] []) ∧
    (regionLen g ≤ off → s.regionRead g off = 0 ∧ s.regionWrite g off v = s)

/-- 20_memory.md R66 to R68: the address decoder is a function with the ranges of the map, the unnamed addresses are
those of R67, and from 3200 on it is `OUTSIDE`. -/
def Obligations.AddressDecoder : Prop :=
  (∀ a : Nat,
    (decodeAddress a = .named .stack ↔ a < 256) ∧
    (decodeAddress a = .named .btns ↔ 512 ≤ a ∧ a ≤ 514) ∧
    (decodeAddress a = .named .audio ↔ 520 ≤ a ∧ a ≤ 521) ∧
    (decodeAddress a = .named .icons ↔ a = 524) ∧
    (decodeAddress a = .named .timer ↔ a = 526) ∧
    (decodeAddress a = .named .sstate ↔ 528 ≤ a ∧ a ≤ 529) ∧
    (decodeAddress a = .named .spins ↔ 544 ≤ a ∧ a ≤ 559) ∧
    (decodeAddress a = .named .video ↔ 640 ≤ a ∧ a ≤ 1151) ∧
    (decodeAddress a = .named .savew ↔ 1152 ≤ a ∧ a ≤ 1407) ∧
    (decodeAddress a = .named .image ↔ 1408 ≤ a ∧ a ≤ 1919) ∧
    (decodeAddress a = .plain ↔
      (256 ≤ a ∧ a ≤ 511) ∨ (515 ≤ a ∧ a ≤ 519) ∨ (522 ≤ a ∧ a ≤ 523) ∨ a = 525 ∨ a = 527 ∨
      (530 ≤ a ∧ a ≤ 543) ∨ (560 ≤ a ∧ a ≤ 639) ∨ (1920 ≤ a ∧ a ≤ 3199)) ∧
    (decodeAddress a = .outside ↔ 3200 ≤ a))

/-- 10_state.md R31, R32: `Push` and `Pop`. -/
def Obligations.PushAndPop : Prop :=
  ∀ (s : State) (v : Byte),
    ((s.push v).memRead (s.raw .sp).toNat = v ∧ (s.push v).raw .sp = s.raw .sp + 1 ∧
      Frame s (s.push v) [.sp] [(s.raw .sp).toNat] []) ∧
    (s.pop.1 = s.memRead (s.raw .sp - 1).toNat ∧ s.pop.2.raw .sp = s.raw .sp - 1 ∧ Frame s s.pop.2 [.sp] [] [])

/-- 10_state.md R34: at most 256 pushed values come back in reverse order; the 257th overwrites the first. -/
def Obligations.StackIsLastInFirstOut : Prop :=
  (∀ (s : State) (vs : List Byte), vs.length ≤ 256 →
    (State.popMany vs.length (s.pushAll vs)).1 = vs.reverse ∧
    (State.popMany vs.length (s.pushAll vs)).2.raw .sp = s.raw .sp) ∧
  (∀ (s : State) (vs : List Byte) (v : Byte), vs.length = 256 →
    (s.pushAll (vs ++ [v])).memRead (s.raw .sp).toNat = v ∧
    (s.pushAll (vs ++ [v])).raw .sp = s.raw .sp + 1)

/-! ## Moves, arithmetic -/

/-- 41_stack_and_register_moves.md R160: `CONST`. -/
def Obligations.ConstPushesParameter : Prop :=
  (Encodes 0x02 fun p => .const p) ∧
  ∀ (s : State) (p : Byte), ∃ t, exec (.const p) s = .next t ∧
    t.raw .sp = s.raw .sp + 1 ∧ t.memRead s.freeAddr = p ∧ Frame s t [.sp] [s.freeAddr] []

/-- 41_stack_and_register_moves.md R161: `GET`. -/
def Obligations.GetPushesRegister : Prop :=
  (Encodes 0x03 fun p => .get (RegRef.ofParam p)) ∧
  (∀ (s : State) (r : Reg), ∃ t, exec (.get (.slot r)) s = .next t ∧
    t.raw .sp = s.raw .sp + 1 ∧ NormOf s (s.raw r).toNat (t.memRead s.freeAddr) ∧
    Frame s t [.sp] [s.freeAddr] []) ∧
  (∀ (s : State) (n : Byte), ∃ t, exec (.get (.absent n)) s = .next t ∧
    t.raw .sp = s.raw .sp + 1 ∧ t.memRead s.freeAddr = 0 ∧ Frame s t [.sp] [s.freeAddr] [])

/-- 41_stack_and_register_moves.md R162: `SET`, to any slot and to none. -/
def Obligations.SetPopsIntoRegister : Prop :=
  (Encodes 0x04 fun p => .set (RegRef.ofParam p)) ∧
  (∀ (s : State) (r : Reg), ∃ t, exec (.set (.slot r)) s = .next t ∧
    NormOf s s.top.toNat (t.raw r) ∧ (r ≠ .sp → t.raw .sp = s.raw .sp - 1) ∧ Frame s t [.sp, r] [] []) ∧
  (∀ (s : State) (n : Byte), ∃ t, exec (.set (.absent n)) s = .next t ∧
    t.raw .sp = s.raw .sp - 1 ∧ Frame s t [.sp] [] [])

/-- 42_arithmetic_and_bitwise.md R170 to R173: `ADD`, `SUB`, `MUL`, the full result formed before `Norm`. -/
def Obligations.AddSubMulResult : Prop :=
  (Encodes 0x05 fun _ => .add) ∧ (Encodes 0x06 fun _ => .sub) ∧ (Encodes 0x07 fun _ => .mul) ∧
  PushesNormOf .add (fun b a => (b : Int) + a) ∧
  PushesNormOf .sub (fun b a => (b : Int) - a) ∧
  PushesNormOf .mul (fun b a => (b : Int) * a)

/-- 42_arithmetic_and_bitwise.md R174: `DIV`, rounded to nearest with halves upward; 255 for a zero divisor (the spec's
decision D11). -/
def Obligations.DivResult : Prop :=
  (Encodes 0x08 fun _ => .div) ∧
  PushesNormOf .div (fun b a => if a = 0 then 255 else ((2 * b + a) / (2 * a) : Nat))

/-- 42_arithmetic_and_bitwise.md R175 to R177: `AND`, `OR`, `XOR`. -/
def Obligations.BitwiseResult : Prop :=
  (Encodes 0x09 fun _ => .and) ∧ (Encodes 0x0A fun _ => .or) ∧ (Encodes 0x0B fun _ => .xor) ∧
  PushesNormOf .and (fun b a => ((b &&& a : Nat) : Int)) ∧
  PushesNormOf .or (fun b a => ((b ||| a : Nat) : Int)) ∧
  PushesNormOf .xor (fun b a => ((b ^^^ a : Nat) : Int))

/-! ## Control transfer -/

/-- 43_control_transfer.md R190, R191: `JUMP`. -/
def Obligations.JumpSavesAndGoes : Prop :=
  (Encodes 0x0C fun p => .jump p) ∧
  ∀ (s : State) (l : Byte), ∃ t, exec (.jump l) s = .next t ∧
    t.rp = s.pc ∧ t.pc = ((LabelTable.find s.labels l).map wordToNumber).getD 0 ∧
    Frame s t [.pch, .pcl, .rph, .rpl] [] []

/-- 43_control_transfer.md R192 to R197: the six conditional jumps compare `b` with `a`, unsigned. -/
def Obligations.ConditionalJumps : Prop :=
  (Encodes 0x0D fun p => .jeq p) ∧ (Encodes 0x0E fun p => .jneq p) ∧ (Encodes 0x0F fun p => .jgt p) ∧
  (Encodes 0x10 fun p => .jgte p) ∧ (Encodes 0x11 fun p => .jlt p) ∧ (Encodes 0x12 fun p => .jlte p) ∧
  JumpsWhen .jeq (fun b a => b = a) ∧ JumpsWhen .jneq (fun b a => b ≠ a) ∧
  JumpsWhen .jgt (fun b a => b > a) ∧ JumpsWhen .jgte (fun b a => b ≥ a) ∧
  JumpsWhen .jlt (fun b a => b < a) ∧ JumpsWhen .jlte (fun b a => b ≤ a)

/-- 43_control_transfer.md R198: `RTN`. -/
def Obligations.RtnRestoresReturnPointer : Prop :=
  (Encodes 0x13 fun _ => .rtn) ∧
  ∀ s : State, ∃ t, exec .rtn s = .next t ∧ t.pc = s.rp ∧ t.rp = s.rp ∧ Frame s t [.pch, .pcl] [] []

/-- 43_control_transfer.md R199: `SLEEP` loads the counter through `Norm`. -/
def Obligations.SleepLoadsCounter : Prop :=
  (Encodes 0x14 fun p => .sleep p) ∧
  ∀ (s : State) (n : Byte), ∃ t, exec (.sleep n) s = .next t ∧ NormOf s n.toNat (t.raw .slp) ∧ Frame s t [.slp] [] []

/-- 43_control_transfer.md R199, 70_reset_and_hazards.md R291 (the spec's own inference): a counter of `k` is `k` stall
cycles, which change nothing else. -/
def Obligations.SleepCounterStallsExactly : Prop :=
  ∀ (s : State) (k : Nat), s.run = .running → s.agenda = [] → k ≤ (s.raw .slp).toNat →
    Host.Core.run Sys2Proof.core k s = .next (s.setRaw .slp (BitVec.ofNat 8 ((s.raw .slp).toNat - k)))

/-! ## Memory and Storage access -/

/-- 44_memory_and_storage_access.md R210, R211: `MGET`. -/
def Obligations.MgetPushesMemoryByte : Prop :=
  (Encodes 0x15 fun p => .mget p) ∧
  ∀ (s : State) (n : Byte), ∃ t, exec (.mget n) s = .next t ∧
    t.raw .sp = s.raw .sp + 1 ∧
    t.memRead s.freeAddr = (if s.mp + n.toNat < 3200 then s.memRead (s.mp + n.toNat) else 0) ∧
    Frame s t [.sp] [s.freeAddr] []

/-- 44_memory_and_storage_access.md R210, R212: `MSET`. -/
def Obligations.MsetStoresToMemory : Prop :=
  (Encodes 0x16 fun p => .mset p) ∧
  ∀ (s : State) (n : Byte), ∃ t, exec (.mset n) s = .next t ∧
    t.raw .sp = s.raw .sp - 1 ∧
    (s.mp + n.toNat < 3200 →
      t.memRead (s.mp + n.toNat) = s.top ∧ Frame s t [.sp] [s.mp + n.toNat] []) ∧
    (3200 ≤ s.mp + n.toNat → Frame s t [.sp] [] [])

/-- 44_memory_and_storage_access.md R210, R213: `SGET`. -/
def Obligations.SgetPushesStorageByte : Prop :=
  (Encodes 0x17 fun p => .sget p) ∧
  ∀ (s : State) (n : Byte), ∃ t, exec (.sget n) s = .next t ∧
    t.raw .sp = s.raw .sp + 1 ∧
    t.memRead s.freeAddr = (if s.stp + n.toNat < 65536 then s.stoRead (s.stp + n.toNat) else 0) ∧
    Frame s t [.sp] [s.freeAddr] []

/-- 44_memory_and_storage_access.md R210, R214: `SSET`. -/
def Obligations.SsetStoresToStorage : Prop :=
  (Encodes 0x18 fun p => .sset p) ∧
  ∀ (s : State) (n : Byte), ∃ t, exec (.sset n) s = .next t ∧
    t.raw .sp = s.raw .sp - 1 ∧
    (s.stp + n.toNat < 65536 →
      t.stoRead (s.stp + n.toNat) = s.top ∧ Frame s t [.sp] [] [s.stp + n.toNat]) ∧
    (65536 ≤ s.stp + n.toNat → Frame s t [.sp] [] [])

/-- 20_memory.md R82 (the spec's own inference): the byte an `SSET` cycle stores at the next token's opcode is the one the
very next cycle fetches. -/
def Obligations.StoreToStorageSeenByNextFetch : Prop :=
  ∀ (s : State) (n : Byte), s.run = .running → s.agenda = [] → s.raw .slp = 0 →
    decodeToken (s.stoRead (2 * s.pc)) (s.stoRead (2 * s.pc + 1)) = .ok (.sset n) →
    s.pc < 32767 → s.stp + n.toNat = 2 * (s.pc + 1) →
    ∃ t, step s = .next t ∧ t.pc = s.pc + 1 ∧
      t.cycleKind =
        if s.top = 0 then .originReset else .executed s.top (s.stoRead (2 * (s.pc + 1) + 1))

/-! ## Peripherals -/

/-- 45_peripheral_instructions.md R221: `CLEAR`. -/
def Obligations.ClearFillsVideo : Prop :=
  (Encodes 0x19 fun p => .clear p) ∧
  ∀ (s : State) (c : Byte), ∃ t, exec (.clear c) s = .next t ∧
    (∀ off, off < 512 → t.memRead (640 + off) = c) ∧ Frame s t [] (List.range' 640 512) []

/-- 45_peripheral_instructions.md R222: `DRAW`. -/
def Obligations.DrawWritesOnePixel : Prop :=
  (Encodes 0x1A fun p => .draw p) ∧
  ∀ (s : State) (c : Byte), ∃ t, exec (.draw c) s = .next t ∧
    t.raw .sp = s.raw .sp - 2 ∧
    (s.second.toNat + 32 * s.top.toNat < 512 →
      t.memRead (640 + (s.second.toNat + 32 * s.top.toNat)) = c ∧
      Frame s t [.sp] [640 + (s.second.toNat + 32 * s.top.toNat)] []) ∧
    (512 ≤ s.second.toNat + 32 * s.top.toNat → Frame s t [.sp] [] [])

/-- 45_peripheral_instructions.md R223: `SHADE`. -/
def Obligations.ShadeReadsOnePixel : Prop :=
  (Encodes 0x1B fun _ => .shade) ∧
  ∀ s : State, ∃ t, exec .shade s = .next t ∧
    t.raw .sp = s.raw .sp - 2 ∧
    NormOf s (if s.second.toNat + 32 * s.top.toNat < 512 then
        s.memRead (640 + (s.second.toNat + 32 * s.top.toNat)) else 0).toNat (t.raw .a) ∧
    Frame s t [.sp, .a] [] []

/-- 45_peripheral_instructions.md R224, R225: `BTN` and `BTND`. -/
def Obligations.ButtonsReadIntoA : Prop :=
  (Encodes 0x1C fun p => .btn p) ∧ (Encodes 0x1D fun p => .btnd p) ∧
  (∀ (s : State) (n : Byte), ∃ t, exec (.btn n) s = .next t ∧
    NormOf s (if n.toNat < 3 ∧ s.memRead (512 + n.toNat) ≠ 0 then 255 else 0) (t.raw .a) ∧ Frame s t [.a] [] []) ∧
  (∀ (s : State) (n : Byte), ∃ t, exec (.btnd n) s = .next t ∧
    NormOf s (if n.toNat < 3 ∧ s.memRead (512 + n.toNat) = 1 then 255 else 0) (t.raw .a) ∧ Frame s t [.a] [] [])

/-- 45_peripheral_instructions.md R226: `TONE`. -/
def Obligations.ToneWritesFrequency : Prop :=
  (Encodes 0x1E fun _ => .tone) ∧
  ∀ s : State, ∃ t, exec .tone s = .next t ∧
    t.raw .sp = s.raw .sp - 2 ∧ t.memRead 520 = s.second ∧ t.memRead 521 = s.top ∧ Frame s t [.sp] [520, 521] []

/-- 45_peripheral_instructions.md R231: `SEND`. -/
def Obligations.SendOffersByte : Prop :=
  (Encodes 0x1F fun _ => .send) ∧
  ∀ s : State, ∃ t, exec .send s = .next t ∧
    t.raw .sp = s.raw .sp - 1 ∧
    (s.memRead 529 = 0 →
      t.memRead 528 = s.top ∧ t.memRead 529 = 1 ∧ NormOf s 255 (t.raw .a) ∧ Frame s t [.sp, .a] [528, 529] []) ∧
    (s.memRead 529 ≠ 0 → t.raw .a = 0 ∧ Frame s t [.sp, .a] [] [])

/-- 45_peripheral_instructions.md R232: `RECV`. -/
def Obligations.RecvTakesByte : Prop :=
  (Encodes 0x20 fun _ => .recv) ∧
  ∀ s : State, ∃ t, exec .recv s = .next t ∧
    (s.memRead 529 = 2 →
      NormOf s (s.memRead 528).toNat (t.raw .a) ∧ NormOf s 255 (t.raw .b) ∧ t.memRead 529 = 0 ∧
      Frame s t [.a, .b] [529] []) ∧
    (s.memRead 529 ≠ 2 → t.raw .b = 0 ∧ Frame s t [.b] [] [])

/-- 45_peripheral_instructions.md R233, R234: `PIN` and `POUT`. -/
def Obligations.PinsReadAndDriven : Prop :=
  (Encodes 0x21 fun p => .pin p) ∧ (Encodes 0x22 fun p => .pout p) ∧
  (∀ (s : State) (k : Byte), ∃ t, exec (.pin k) s = .next t ∧
    NormOf s (if k.toNat < 16 then s.memRead (544 + k.toNat) else 0).toNat (t.raw .a) ∧ Frame s t [.a] [] []) ∧
  (∀ (s : State) (k : Byte), ∃ t, exec (.pout k) s = .next t ∧
    t.raw .sp = s.raw .sp - 1 ∧
    (k.toNat < 16 → t.memRead (544 + k.toNat) = s.top ∧ Frame s t [.sp] [544 + k.toNat] []) ∧
    (16 ≤ k.toNat → Frame s t [.sp] [] []))

/-- 45_peripheral_instructions.md R241: `SAVE`; every other name keeps its window. -/
def Obligations.SaveStoresWindow : Prop :=
  (Encodes 0x23 fun _ => .save) ∧
  ∀ s : State, ∃ t w, exec .save s = .next t ∧
    DurableStore.get t.store s.name = some w ∧ w.length = 256 ∧
    (∀ k, k < 256 → w.getD k 0 = s.memRead (1152 + k)) ∧
    (∀ n, n ≠ s.name → DurableStore.get t.store n = DurableStore.get s.store n) ∧
    { t with store := s.store } = s

/-- 45_peripheral_instructions.md R242: `LOAD`. Stored windows have 256 bytes (10_state.md R47), an invariant that
`StepKeepsInvariant` states. -/
def Obligations.LoadRestoresWindow : Prop :=
  (Encodes 0x24 fun _ => .load) ∧
  ∀ s : State, ∃ t, exec .load s = .next t ∧
    (∀ w, DurableStore.get s.store s.name = some w → w.length = 256 → ∀ k, k < 256 → t.memRead (1152 + k) = w.getD k 0) ∧
    (DurableStore.get s.store s.name = none → ∀ k, k < 256 → t.memRead (1152 + k) = 0) ∧
    Frame s t [] (List.range' 1152 256) []

/-- 45_peripheral_instructions.md section 5: `SAVE`, then `LOAD` under the same name, restores the window. -/
def Obligations.SaveThenLoadRestores : Prop :=
  ∀ s t u v : State, exec .save s = .next t → u.name = s.name → u.store = t.store → exec .load u = .next v →
    ∀ a, 1152 ≤ a → a ≤ 1407 → v.memRead a = s.memRead a

/-- 40_cycle_and_dispatch.md R147, 45_peripheral_instructions.md R243 to R246: `NOP` and the stubs change nothing. -/
def Obligations.NopAndStubsDoNothing : Prop :=
  (Encodes 0x01 fun _ => .nop) ∧ (Encodes 0x25 fun _ => .tile) ∧ (Encodes 0x26 fun _ => .sprite) ∧
  (Encodes 0x27 fun _ => .icon) ∧ (Encodes 0x28 fun _ => .print) ∧
  ∀ s : State, exec .nop s = .next s ∧ exec .tile s = .next s ∧ exec .sprite s = .next s ∧ exec .icon s = .next s ∧
    exec .print s = .next s

/-- 40_cycle_and_dispatch.md R143, R153: opcode byte 0 returns to token 0 and changes nothing else. -/
def Obligations.ZeroReturnsToOrigin : Prop :=
  (Encodes 0x00 fun _ => .zero) ∧
  ∀ s : State, ∃ t, exec .zero s = .next t ∧ t.pc = 0 ∧ Frame s t [.pch, .pcl] [] []

/-! ## The cycle -/

/-- 40_cycle_and_dispatch.md R140, R144: a step runs the decoded instruction, after the advance; `ZERO` without one. The
agenda is the model's (log entry 2). -/
def Obligations.StepRunsDecodedInstruction : Prop :=
  ∀ (s s' : State) (i : Instr), s.EngineTurn s' → s.raw .slp = 0 →
    decodeToken (s.stoRead (2 * s.pc)) (s.stoRead (2 * s.pc + 1)) = .ok i →
    (i ≠ .zero → step s = exec i s'.advance) ∧ (i = .zero → step s = exec .zero s') ∧
    s'.advance.pc = (s.pc + 1) % 65536 ∧ Frame s' s'.advance [.pch, .pcl] [] []

/-- 40_cycle_and_dispatch.md R149: the three kinds of cycle, when each occurs and what the first two change; an executed
cycle runs what was decoded, after the advance. -/
def Obligations.ThreeKindsOfCycle : Prop :=
  ∀ s s' : State, s.EngineTurn s' →
    (s.raw .slp ≠ 0 → s.cycleKind = .stall ∧ ∃ t, step s = .next t ∧
      (t.raw .slp).toNat = (s.raw .slp).toNat - 1 ∧ Frame s' t [.slp] [] []) ∧
    (s.raw .slp = 0 → s.stoRead (2 * s.pc) = 0 → s.cycleKind = .originReset ∧ ∃ t, step s = .next t ∧
      t.pc = 0 ∧ Frame s' t [.pch, .pcl] [] []) ∧
    (s.raw .slp = 0 → s.stoRead (2 * s.pc) ≠ 0 →
      s.cycleKind = .executed (s.stoRead (2 * s.pc)) (s.stoRead (2 * s.pc + 1)) ∧
      step s = (match decodeToken (s.stoRead (2 * s.pc)) (s.stoRead (2 * s.pc + 1)) with
        | .ok i => exec i s'.advance
        | .error _ => .next s'.advance))

/-- 40_cycle_and_dispatch.md R148: an unassigned opcode byte only advances `pc`. -/
def Obligations.UnassignedOpcodeIsNop : Prop :=
  ∀ s s' : State, s.EngineTurn s' → s.raw .slp = 0 → 0x29 ≤ (s.stoRead (2 * s.pc)).toNat →
    ∃ t, step s = .next t ∧ t.pc = (s.pc + 1) % 65536 ∧ Frame s' t [.pch, .pcl] [] []

/-- 10_state.md R25 (the spec's own inference): a fetch beyond Storage is an origin reset. -/
def Obligations.FetchBeyondStorageResets : Prop :=
  ∀ s s' : State, s.EngineTurn s' → s.raw .slp = 0 → 32768 ≤ s.pc →
    s.cycleKind = .originReset ∧ ∃ t, step s = .next t ∧ t.pc = 0 ∧ Frame s' t [.pch, .pcl] [] []

/-- 60_exceptions.md R250: nothing raises: every instruction answers a next state, from every state, and so does every
step. That a step which is no cycle is a step all the same, the turn of an agent outside the core, a turn taken while the
engine is stopped, or the engine's own turn then, and what it answers, is the model's (log entries 2, 4, 25, 26 and 27). -/
def Obligations.NothingEverStops : Prop :=
  (∀ (i : Instr) (s : State), ∃ t, exec i s = .next t) ∧ (∀ s : State, ∃ t, step s = .next t)

/-! ## Whole-machine rules -/

/-- Every step keeps the invariant: canonical and bounded Memory and Storage, the label table a map, the durable store a
map to 256 bytes (10_state.md R41 to R43, R47). -/
def Obligations.StepKeepsInvariant : Prop :=
  ∀ s t : State, s.Inv → step s = .next t → t.Inv

/-- The invariant holds after power-on. -/
def Obligations.InvariantAtReset : Prop := State.reset.Inv

/-- 10_state.md section 5, the table of R40: an instruction changes no slot but those the table lets it write. -/
def Obligations.OnlyListedSlotsChange : Prop :=
  ∀ (i : Instr) (s t : State) (r : Reg), exec i s = .next t → t.raw r ≠ s.raw r → r ∈ slotsWritten i

/-- 10_state.md R26: the flag is 0 after reset, no instruction but `SET WRAP` writes it, and it is what `Norm` reads: wrap
mode when it is not 0, clamp mode when it is. -/
def Obligations.WrapFlagRules : Prop :=
  State.reset.raw .wrap = 0 ∧
  (∀ (i : Instr) (s t : State), i ≠ .set (.slot .wrap) → exec i s = .next t → t.raw .wrap = s.raw .wrap) ∧
  (∀ (s : State) (v : Int), NormOf s v (s.norm v))

/-- 20_memory.md section 4, the table of R74: an instruction changes Memory only in the ranges the table gives it,
Storage only by `SSET`, the durable store only by `SAVE`, and nothing else outside the register file ever. -/
def Obligations.OnlyListedSpacesChange : Prop :=
  ∀ (i : Instr) (s t : State), exec i s = .next t →
    (∀ a, t.memRead a ≠ s.memRead a → ∃ p ∈ rangesWritten s i, p.1 ≤ a ∧ a < p.1 + p.2) ∧
    ((∀ n, i ≠ .sset n) → ∀ a, t.stoRead a = s.stoRead a) ∧
    (i ≠ .save → t.store = s.store) ∧
    t.labels = s.labels ∧ t.name = s.name ∧ t.run = s.run ∧ t.agenda = s.agenda

/-- 10_state.md R43, R44, R45 and 20_memory.md R86: over steps, `LBL` and `NAME` change only by a load or a power cycle,
`RUN` only by the host's calls or a power cycle, and the durable store only by a cycle that runs `SAVE`. What a power cycle
does is 10_state.md R50 and 70_reset_and_hazards.md R281, and that the store outlives it 60_exceptions.md R272; that it is
an entry of the agenda, taken between two cycles, is the model's (log entries 2 and 27). -/
def Obligations.PlatformStateChangesOnlyAsNamed : Prop :=
  ∀ s t : State, step s = .next t →
    ((t.labels = s.labels ∧ t.name = s.name) ∨
      ∃ rest, s.agenda = .powerCycle :: rest ∨ ∃ im, s.agenda = .loadProgram im :: rest) ∧
    (t.run = s.run ∨ ∃ rest, s.agenda = .run :: rest ∨ s.agenda = .pause :: rest ∨ s.agenda = .powerCycle :: rest ∨
      ∃ im, s.agenda = .loadProgram im :: rest) ∧
    (t.store = s.store ∨ ((∃ s', s.EngineTurn s') ∧ s.raw .slp = 0 ∧
      decodeToken (s.stoRead (2 * s.pc)) (s.stoRead (2 * s.pc + 1)) = .ok .save))

/-! ## Encoding -/

/-- 30_encoding.md R103, R104: decode and encode agree, with every operand at every value, and no bit that the decoder
reads is dropped. -/
def Obligations.EncodeDecodeRoundTrip : Prop :=
  (∀ (i : Instr) (rest : List Byte), i.wf = true → decode (encode i ++ rest) = .ok (i, rest)) ∧
  (∀ (o p : Byte) (rest : List Byte) (i : Instr), decode (o :: p :: rest) = .ok (i, rest) →
    i.wf = true ∧ (ignoresParam i = false → encode i = [o, p]) ∧ (ignoresParam i = true → encode i = [o, 0]))

/-- 30_encoding.md R103: decoding is total: `ZERO` for opcode byte 0, the instruction whose ordinal the byte is up to 0x28,
unassigned from 0x29. -/
def Obligations.DecodeIsTotal : Prop :=
  ∀ o p : Byte,
    (o = 0 → decodeToken o p = .ok .zero) ∧
    (o ≠ 0 → o.toNat ≤ 0x28 → ∃ m : Mnemonic, m.ordinal = o ∧ decodeToken o p = .ok (m.instr p) ∧
      (m.instr p).wf = true) ∧
    (0x29 ≤ o.toNat → decodeToken o p = .error (.unassigned o))

/-- 30_encoding.md R102, R104: token words written out from the table decode to their instructions. -/
def Obligations.TokenWordsDecode : Prop :=
  decode [0x02, 0x03] = .ok (.const 3, []) ∧ decode [0x03, 0x04] = .ok (.get (.slot .sp), []) ∧
  decode [0x08, 0x77] = .ok (.div, []) ∧ decode [0x10, 0x01] = .ok (.jgte 1, []) ∧
  decode [0x18, 0x14] = .ok (.sset 0x14, []) ∧ decode [0x1A, 0x01] = .ok (.draw 1, []) ∧
  decode [0x24, 0x00] = .ok (.load, []) ∧ decode [0x00, 0xAB] = .ok (.zero, []) ∧
  decode [0xFF, 0x12] = .error (.unassigned 0xFF)

/-! ## The assembler -/

/-- 30_encoding.md R121: each line that counts emits exactly one token; and (the spec's own inference) the label table is
a map. -/
def Obligations.AssemblerOutputShape : Prop :=
  ∀ text : List Char,
    (assemble text).1.length = (sourceLines text).length ∧ LabelTable.wf (assemble text).2 = true

/-- 30_encoding.md R123: a label line emits `NOP 0` and records the line's index under the next id. -/
def Obligations.AssemblerLabelLine : Prop :=
  ∀ (consts : List (List Char × Int)) (e : Emission) (label : List Char) (param : Option (List Char)),
    (emitLine consts e ⟨':' :: label, param⟩).1 = ⟨.nop, 0⟩ ∧
    LabelTable.find (emitLine consts e ⟨':' :: label, param⟩).2.labels (BitVec.ofNat 8 e.count) =
      some (numberToWord e.line) ∧
    lookupName (emitLine consts e ⟨':' :: label, param⟩).2.names label = some (BitVec.ofNat 8 e.count) ∧
    (emitLine consts e ⟨':' :: label, param⟩).2.count = e.count + 1 ∧
    ∀ l, l ≠ BitVec.ofNat 8 e.count →
      LabelTable.find (emitLine consts e ⟨':' :: label, param⟩).2.labels l = LabelTable.find e.labels l
end

