-- ==== Sys2Proof/Laws/Assembler.lean ====
section
/-! SUPPORT. The label table the assembler builds: what is found in it after a label is recorded, and that it stays a
map. -/

namespace Sys2Proof.Machine

theorem LabelTable.find_append (x y : LabelTable) (l : Byte) :
    LabelTable.find (x ++ y) l = (LabelTable.find x l).or (LabelTable.find y l) := by
  induction x with
  | nil => simp [LabelTable.find]
  | cons e t ih =>
    simp only [List.cons_append, LabelTable.find]
    split <;> simp [ih]

theorem LabelTable.find_filter (x : LabelTable) (p : Byte × Address → Bool) (l : Byte) (h : ∀ w, p (l, w) = true) :
    LabelTable.find (x.filter p) l = LabelTable.find x l := by
  induction x with
  | nil => rfl
  | cons e t ih =>
    obtain ⟨k, w⟩ := e
    by_cases hk : k = l
    · subst hk
      simp [List.filter, h, LabelTable.find]
    · by_cases hp : p (k, w) <;> simp [List.filter, hp, LabelTable.find, hk, ih]

theorem LabelTable.find_filter_none (x : LabelTable) (p : Byte × Address → Bool) (l : Byte)
    (h : ∀ w, p (l, w) = false) : LabelTable.find (x.filter p) l = none := by
  induction x with
  | nil => rfl
  | cons e t ih =>
    obtain ⟨k, w⟩ := e
    by_cases hp : p (k, w) = true
    · have hk : k ≠ l := by
        rintro rfl
        simp [h] at hp
      simp [List.filter, hp, LabelTable.find, hk, ih]
    · simp [List.filter, hp, ih]

/-- Everything recording a label does to the table (30_encoding.md R123). -/
theorem LabelTable.find_record (x : LabelTable) (id l : Byte) (w : Address) :
    LabelTable.find (LabelTable.record x id w) l = if l = id then some w else LabelTable.find x l := by
  rw [LabelTable.record, LabelTable.find_append]
  by_cases hl : l = id
  · subst hl
    rw [LabelTable.find_filter_none _ _ _ (by simp)]
    simp [LabelTable.find]
  · simp only [LabelTable.find, if_neg (Ne.symm hl), if_neg hl]
    rcases Nat.lt_trichotomy l.toNat id.toNat with h | h | h
    · rw [LabelTable.find_filter _ _ _ (fun _ => by simpa using h),
        LabelTable.find_filter_none _ _ _ (fun _ => by simp; omega)]
      simp
    · exact absurd (BitVec.eq_of_toNat_eq h) hl
    · rw [LabelTable.find_filter_none _ _ _ (fun _ => by simp; omega),
        LabelTable.find_filter _ _ _ (fun _ => by simpa using h)]
      simp

/-- The check says that the ids rise strictly. -/
theorem LabelTable.wf_iff (x : LabelTable) :
    LabelTable.wf x = true ↔ x.Pairwise (fun a b => a.1.toNat < b.1.toNat) := by
  induction x with
  | nil => simp [LabelTable.wf]
  | cons a t ih =>
    cases t with
    | nil => simp [LabelTable.wf]
    | cons b t =>
      simp only [LabelTable.wf, Bool.and_eq_true, decide_eq_true_eq, ih]
      refine ⟨fun ⟨h1, h2⟩ => List.Pairwise.cons (fun c hc => ?_) h2,
        fun h => ⟨List.rel_of_pairwise_cons h (by simp), h.tail⟩⟩
      rcases List.mem_cons.1 hc with rfl | hc
      · exact h1
      · exact Nat.lt_trans h1 (List.rel_of_pairwise_cons h2 hc)

/-- Recording a label keeps the table a map. -/
theorem LabelTable.wf_record (x : LabelTable) (id : Byte) (w : Address) (h : LabelTable.wf x = true) :
    LabelTable.wf (LabelTable.record x id w) = true := by
  rw [LabelTable.wf_iff] at *
  rw [LabelTable.record, List.pairwise_append]
  refine ⟨h.filter _, List.Pairwise.cons (by simp) (h.filter _), fun a ha b hb => ?_⟩
  simp at ha hb
  rcases hb with rfl | hb
  · exact ha.2
  · omega

end Sys2Proof.Machine
end

