-- ==== Sys2Proof/Laws/Decode.lean ====
section
/-! SUPPORT. The small lemmas of the decoder: the register operand both ways, and the rows the round trip needs. -/

namespace Sys2Proof

/-- A byte from 13 on is no slot's ordinal (10_state.md R21). -/
theorem Reg.ofOrdinal_none (n : Byte) (h : 13 ≤ n.toNat) : Reg.ofOrdinal n = none := by
  have hne : ∀ k : Byte, k.toNat < 13 → (k == n) = false := fun k hk => by
    simp only [beq_eq_false_iff_ne]
    rintro rfl
    omega
  simp [Reg.ofOrdinal, Machine.registerRows, List.find?, hne]

theorem Reg.ofOrdinal_of_lt (n : Byte) (h : n.toNat < 13) : ∃ r, Reg.ofOrdinal n = some r := by
  obtain ⟨k, hk, rfl⟩ : ∃ k, k < 13 ∧ n = BitVec.ofNat 8 k := ⟨n.toNat, h, by simp⟩
  interval_cases k <;> exact ⟨_, rfl⟩

theorem Reg.ofOrdinal_ordinal (r : Reg) : Reg.ofOrdinal r.ordinal = some r := by cases r <;> rfl

/-- Well-formed says that no slot has the ordinal. -/
theorem RegRef.wf_absent (n : Byte) : RegRef.wf (.absent n) = true ↔ Reg.ofOrdinal n = none := by
  simp [RegRef.wf, Reg.ofOrdinal, List.all_eq_true]

/-- A register operand is read back from its parameter byte (30_encoding.md R107). -/
theorem RegRef.ofParam_param (r : RegRef) (h : r.wf = true) : RegRef.ofParam r.param = r := by
  cases r with
  | slot r => simp [RegRef.ofParam, RegRef.param, Reg.ofOrdinal_ordinal]
  | absent n => simp [RegRef.ofParam, RegRef.param, (RegRef.wf_absent n).1 h]

/-- The decoder's register operands are well-formed. -/
theorem RegRef.ofParam_wf (p : Byte) : (RegRef.ofParam p).wf = true := by
  unfold RegRef.ofParam
  split
  · rfl
  · exact (RegRef.wf_absent p).2 ‹_›

/-- What any opcode assignment must meet: no two rows share a byte or a mnemonic, none is 0, every mnemonic has a row
(30_encoding.md R104). -/
theorem opc_injective :
    Machine.params.opc.Pairwise (fun x y => x.1 ≠ y.1 ∧ x.2 ≠ y.2) ∧ (∀ row ∈ Machine.params.opc, row.1 ≠ 0) ∧
      ∀ m : Mnemonic, Mnemonic.ofOpcode m.ordinal = some m := by
  refine ⟨by decide, by decide, fun m => by cases m <;> rfl⟩

theorem decodeToken_get (p : Byte) : decodeToken Mnemonic.get.ordinal p = .ok (.get (RegRef.ofParam p)) := rfl

theorem decodeToken_set (p : Byte) : decodeToken Mnemonic.set.ordinal p = .ok (.set (RegRef.ofParam p)) := rfl

end Sys2Proof
end

