-- ==== Sys2Proof/Laws/Memory.lean ====
section
/-! SUPPORT. The laws of a byte-addressed space: a read after a write, and the canonical form kept. They hold of every
list of cells, canonical or not, except where the canonical form is the claim. -/

namespace Sys2Proof.Machine

/-! ## Reading pieces of a list -/

theorem Memory.read_append (m n : Memory) (a : Nat) :
    Memory.read (m ++ n) a = if (∃ c ∈ m, c.1 = a) then Memory.read m a else Memory.read n a := by
  induction m with
  | nil => simp
  | cons c t ih =>
    obtain ⟨k, v⟩ := c
    simp only [List.cons_append, Memory.read]
    by_cases hk : k = a
    · simp [hk]
    · simp only [hk, if_false, ih]
      simp [hk]

theorem Memory.read_of_absent (m : Memory) (a : Nat) (h : ∀ c ∈ m, c.1 ≠ a) : Memory.read m a = unlisted := by
  induction m with
  | nil => rfl
  | cons c t ih =>
    obtain ⟨k, v⟩ := c
    have hk : k ≠ a := h (k, v) (by simp)
    simp only [Memory.read, hk, if_false]
    exact ih (fun c hc => h c (by simp [hc]))

/-- A filter that keeps every cell at an address does not change what is read there. -/
theorem Memory.read_filter (m : Memory) (p : Host.Cell → Bool) (a : Nat) (h : ∀ c ∈ m, c.1 = a → p c = true) :
    Memory.read (m.filter p) a = Memory.read m a := by
  induction m with
  | nil => rfl
  | cons c t ih =>
    obtain ⟨k, v⟩ := c
    have ht := ih (fun c hc => h c (by simp [hc]))
    by_cases hk : k = a
    · subst hk
      have hp : p (k, v) = true := h (k, v) (by simp) rfl
      simp [List.filter, hp, Memory.read]
    · cases hp : p (k, v)
      · simp [List.filter, hp, Memory.read, hk, ht]
      · simp [List.filter, hp, Memory.read, hk, ht]

theorem Memory.mem_address_of_read_ne (m : Memory) (a : Nat) (h : Memory.read m a ≠ unlisted) : ∃ c ∈ m, c.1 = a := by
  by_contra hn
  exact h (Memory.read_of_absent m a (fun c hc e => hn ⟨c, hc, e⟩))

/-! ## The cells of a block -/

theorem blockCells_bounds (a : Nat) (vs : List Byte) : ∀ c ∈ blockCells a vs, a ≤ c.1 ∧ c.1 < a + vs.length := by
  induction vs generalizing a with
  | nil => simp [blockCells]
  | cons v vs ih =>
    intro c hc
    simp only [blockCells] at hc
    split at hc
    · have := ih (a + 1) c hc
      simp only [List.length_cons]; omega
    · rcases List.mem_cons.1 hc with rfl | hc
      · simp
      · have := ih (a + 1) c hc
        simp only [List.length_cons]; omega

theorem blockCells_listed (a : Nat) (vs : List Byte) : ∀ c ∈ blockCells a vs, c.2 ≠ unlisted := by
  induction vs generalizing a with
  | nil => simp [blockCells]
  | cons v vs ih =>
    intro c hc
    simp only [blockCells] at hc
    split at hc
    · exact ih (a + 1) c hc
    · rename_i hv
      rcases List.mem_cons.1 hc with rfl | hc
      · exact hv
      · exact ih (a + 1) c hc

theorem blockCells_rising (a : Nat) (vs : List Byte) : (blockCells a vs).Pairwise (fun c d => c.1 < d.1) := by
  induction vs generalizing a with
  | nil => simp [blockCells]
  | cons v vs ih =>
    simp only [blockCells]
    split
    · exact ih (a + 1)
    · refine List.pairwise_cons.2 ⟨fun c hc => ?_, ih (a + 1)⟩
      have := blockCells_bounds (a + 1) vs c hc
      show a < c.1
      omega

theorem read_blockCells (a : Nat) (vs : List Byte) (b : Nat) :
    Memory.read (blockCells a vs) b = if a ≤ b then vs.getD (b - a) unlisted else unlisted := by
  induction vs generalizing a with
  | nil => simp [blockCells, Memory.read]
  | cons v vs ih =>
    have key : ∀ w : Byte, w = (if a + 1 ≤ b then vs.getD (b - (a + 1)) unlisted else unlisted) → a ≠ b →
        w = if a ≤ b then (v :: vs).getD (b - a) unlisted else unlisted := by
      intro w hw hab
      by_cases h : a + 1 ≤ b
      · have e : b - a = (b - (a + 1)) + 1 := by omega
        rw [hw, if_pos h, if_pos (by omega), e]; rfl
      · rw [hw, if_neg h, if_neg (by omega)]
    simp only [blockCells]
    split
    · rename_i hv
      by_cases hab : a = b
      · subst hab; rw [ih]; simp [hv]
      · exact key _ (ih (a + 1)) hab
    · by_cases hab : a = b
      · subst hab; simp [Memory.read]
      · simp only [Memory.read, hab, if_false]
        exact key _ (ih (a + 1)) hab

/-! ## A block written -/

theorem Memory.read_writeBlock_inside (m : Memory) (a : Nat) (vs : List Byte) (b : Nat) (h1 : a ≤ b)
    (h2 : b < a + vs.length) : Memory.read (Memory.writeBlock m a vs) b = vs.getD (b - a) unlisted := by
  unfold Memory.writeBlock
  rw [Memory.read_append, if_neg (by rintro ⟨c, hc, e⟩; simp at hc; omega), Memory.read_append]
  split
  · rw [read_blockCells, if_pos h1]
  · rename_i hn
    rw [Memory.read_of_absent _ b (by intro c hc e; simp at hc; omega)]
    by_contra hne
    refine hn (Memory.mem_address_of_read_ne _ b ?_)
    rw [read_blockCells, if_pos h1]
    exact fun e => hne e.symm

theorem Memory.read_writeBlock_outside (m : Memory) (a : Nat) (vs : List Byte) (b : Nat)
    (h : b < a ∨ a + vs.length ≤ b) : Memory.read (Memory.writeBlock m a vs) b = Memory.read m b := by
  unfold Memory.writeBlock
  have hblock : ¬ ∃ c ∈ blockCells a vs, c.1 = b := by
    rintro ⟨c, hc, e⟩
    have := blockCells_bounds a vs c hc
    omega
  rw [Memory.read_append]
  split
  · rename_i hex
    obtain ⟨c, hc, e⟩ := hex
    refine Memory.read_filter m _ b (fun d hd hdb => ?_)
    simp at hc ⊢
    omega
  · rename_i hn
    rw [Memory.read_append, if_neg hblock]
    by_cases hlt : b < a
    · have habs : ∀ c ∈ m, c.1 ≠ b := by
        intro c hc e
        exact hn ⟨c, by simp [hc]; omega, e⟩
      rw [Memory.read_of_absent m b habs]
      exact Memory.read_of_absent _ b (fun c hc => habs c (List.mem_filter.1 hc).1)
    · refine Memory.read_filter m _ b (fun d hd hdb => ?_)
      simp
      omega

theorem Memory.wf_writeBlock (m : Memory) (a : Nat) (vs : List Byte) (h : Memory.wf m) :
    Memory.wf (Memory.writeBlock m a vs) := by
  obtain ⟨hp, hu⟩ := h
  unfold Memory.writeBlock
  refine ⟨?_, ?_⟩
  · refine List.pairwise_append.2 ⟨hp.filter _, List.pairwise_append.2 ⟨blockCells_rising a vs, hp.filter _, ?_⟩, ?_⟩
    · intro c hc d hd
      have := blockCells_bounds a vs c hc
      simp at hd
      omega
    · intro c hc d hd
      simp only [List.mem_filter, decide_eq_true_eq] at hc
      rcases List.mem_append.1 hd with hd | hd
      · have := blockCells_bounds a vs d hd
        omega
      · simp at hd
        omega
  · intro c hc
    rcases List.mem_append.1 hc with hc | hc
    · exact hu c (List.mem_filter.1 hc).1
    · rcases List.mem_append.1 hc with hc | hc
      · exact blockCells_listed a vs c hc
      · exact hu c (List.mem_filter.1 hc).1

theorem Memory.within_writeBlock (size : Nat) (m : Memory) (a : Nat) (vs : List Byte) (h : Memory.within size m)
    (hb : vs = [] ∨ a + vs.length ≤ size) : Memory.within size (Memory.writeBlock m a vs) := by
  intro c hc
  unfold Memory.writeBlock at hc
  rcases List.mem_append.1 hc with hc | hc
  · exact h c (List.mem_filter.1 hc).1
  · rcases List.mem_append.1 hc with hc | hc
    · have := blockCells_bounds a vs c hc
      rcases hb with rfl | hb
      · simp [blockCells] at hc
      · omega
    · exact h c (List.mem_filter.1 hc).1

/-! ## One byte written -/

theorem Memory.read_write (m : Memory) (a b : Nat) (v : Byte) :
    Memory.read (Memory.write m a v) b = if b = a then v else Memory.read m b := by
  unfold Memory.write
  by_cases h : b = a
  · subst h
    rw [Memory.read_writeBlock_inside m b [v] b (le_refl b) (by simp)]
    simp
  · rw [Memory.read_writeBlock_outside m a [v] b (by simp; omega), if_neg h]

theorem Memory.wf_write (m : Memory) (a : Nat) (v : Byte) (h : Memory.wf m) : Memory.wf (Memory.write m a v) :=
  Memory.wf_writeBlock m a [v] h

theorem Memory.within_write (size : Nat) (m : Memory) (a : Nat) (v : Byte) (h : Memory.within size m) (ha : a < size) :
    Memory.within size (Memory.write m a v) :=
  Memory.within_writeBlock size m a [v] h (.inr (by simpa using ha))

theorem Memory.wf_nil : Memory.wf [] := ⟨List.Pairwise.nil, by simp⟩

/-! ## A block read -/

@[simp] theorem Memory.length_readBlock (m : Memory) (a n : Nat) : (Memory.readBlock m a n).length = n := by
  simp [Memory.readBlock]

theorem Memory.getD_readBlock (m : Memory) (a n k : Nat) (h : k < n) :
    (Memory.readBlock m a n).getD k 0 = Memory.read m (a + k) := by
  simp [Memory.readBlock, h]

/-! ## The durable store -/

theorem DurableStore.get_append (x y : DurableStore) (n : String) :
    DurableStore.get (x ++ y) n = (DurableStore.get x n).or (DurableStore.get y n) := by
  induction x with
  | nil => simp [DurableStore.get]
  | cons e t ih =>
    obtain ⟨k, w⟩ := e
    simp only [List.cons_append, DurableStore.get]
    split <;> simp [ih]

theorem DurableStore.get_of_absent (st : DurableStore) (n : String) (h : ∀ e ∈ st, e.1 ≠ n) :
    DurableStore.get st n = none := by
  induction st with
  | nil => rfl
  | cons e t ih =>
    obtain ⟨k, w⟩ := e
    simp only [DurableStore.get, h (k, w) (by simp), if_false]
    exact ih (fun e he => h e (by simp [he]))

theorem DurableStore.get_filter (st : DurableStore) (p : String × List Byte → Bool) (n : String)
    (h : ∀ e ∈ st, e.1 = n → p e = true) : DurableStore.get (st.filter p) n = DurableStore.get st n := by
  induction st with
  | nil => rfl
  | cons e t ih =>
    obtain ⟨k, w⟩ := e
    have ht := ih (fun e he => h e (by simp [he]))
    by_cases hk : k = n
    · subst hk
      have hp : p (k, w) = true := h (k, w) (by simp) rfl
      simp [List.filter, hp, DurableStore.get]
    · cases hp : p (k, w) <;> simp [List.filter, hp, DurableStore.get, hk, ht]

theorem nameBefore_irrefl (n : String) : nameBefore n n = false := by simp [nameBefore]

theorem nameBefore_trans {k m n : String} (h1 : nameBefore k m = true) (h2 : nameBefore m n = true) :
    nameBefore k n = true := by
  simp only [nameBefore, decide_eq_true_eq] at *
  exact lt_trans h1 h2

theorem nameBefore_total {m n : String} (h : m ≠ n) : nameBefore m n = true ∨ nameBefore n m = true := by
  simp only [nameBefore, decide_eq_true_eq]
  exact lt_or_gt_of_ne (fun e => h (String.toList_injective e))

/-- `get` after `set`: the name set has the bytes set, every other name what it had (20_memory.md R86). -/
theorem DurableStore.get_set (st : DurableStore) (n m : String) (w : List Byte) :
    DurableStore.get (DurableStore.set st n w) m = if m = n then some w else DurableStore.get st m := by
  have absent : ∀ {p : String × List Byte → Bool}, (∀ u, p (m, u) = false) →
      DurableStore.get (st.filter p) m = none := by
    intro p hp
    refine DurableStore.get_of_absent _ m ?_
    rintro ⟨k, u⟩ he rfl
    simp [hp u] at he
  have keeps : ∀ {p : String × List Byte → Bool}, (∀ u, p (m, u) = true) →
      DurableStore.get (st.filter p) m = DurableStore.get st m := by
    intro p hp
    refine DurableStore.get_filter st p m ?_
    rintro ⟨k, u⟩ _ rfl
    exact hp u
  have excl : ∀ {k l : String}, nameBefore k l = true → nameBefore l k = false := by
    intro k l h
    by_contra hn
    have := nameBefore_trans h (by simpa using hn)
    simp [nameBefore_irrefl] at this
  unfold DurableStore.set
  rw [DurableStore.get_append]
  simp only [DurableStore.get]
  by_cases h : m = n
  · subst h
    rw [absent (fun _ => nameBefore_irrefl m)]
    simp
  · rw [if_neg (fun e => h e.symm), if_neg h]
    rcases nameBefore_total h with hb | hb
    · rw [keeps (fun _ => hb), absent (fun _ => excl hb)]
      simp
    · rw [absent (fun _ => excl hb), keeps (fun _ => hb)]
      simp

theorem DurableStore.wf_set (st : DurableStore) (n : String) (w : List Byte) (h : DurableStore.wf st)
    (hw : w.length = 256) : DurableStore.wf (DurableStore.set st n w) := by
  obtain ⟨hp, hl⟩ := h
  unfold DurableStore.set
  refine ⟨List.pairwise_append.2 ⟨hp.filter _, List.pairwise_cons.2 ⟨?_, hp.filter _⟩, ?_⟩, ?_⟩
  · intro e he
    exact (List.mem_filter.1 he).2
  · intro e he f hf
    have h1 := (List.mem_filter.1 he).2
    rcases List.mem_cons.1 hf with rfl | hf
    · exact h1
    · exact nameBefore_trans h1 (List.mem_filter.1 hf).2
  · intro e he
    rcases List.mem_append.1 he with he | he
    · exact hl e (List.mem_filter.1 he).1
    · rcases List.mem_cons.1 he with rfl | he
      · exact hw
      · exact hl e (List.mem_filter.1 he).1

end Sys2Proof.Machine
end

