-- ==== Sys2Proof/Laws/State.lean ====
section
/-! SUPPORT. One lemma per field per update of the state, true by rfl, and the register file read after a write. -/

namespace Sys2Proof.Machine

/-! ## The operand order -/

@[simp] theorem leftRight_eq (a b : Byte) : leftRight a b = (b, a) := rfl

/-! ## The register file -/

theorem Regs.get_set (g : Regs) (r q : Reg) (v : Byte) : (g.set r v).get q = if q = r then v else g.get q := by
  cases r <;> cases q <;> rfl

theorem State.raw_setRaw (s : State) (r q : Reg) (v : Byte) :
    (s.setRaw r v).raw q = if q = r then v else s.raw q := Regs.get_set s.regs r q v

@[simp] theorem State.raw_setRaw_same (s : State) (r : Reg) (v : Byte) : (s.setRaw r v).raw r = v := by
  simp [State.raw_setRaw]

theorem State.raw_setRaw_ne (s : State) {r q : Reg} (h : q ≠ r) (v : Byte) : (s.setRaw r v).raw q = s.raw q := by
  simp [State.raw_setRaw, h]

@[simp] theorem State.setRaw_mem (s : State) (r : Reg) (v : Byte) : (s.setRaw r v).mem = s.mem := rfl
@[simp] theorem State.setRaw_sto (s : State) (r : Reg) (v : Byte) : (s.setRaw r v).sto = s.sto := rfl
@[simp] theorem State.setRaw_run (s : State) (r : Reg) (v : Byte) : (s.setRaw r v).run = s.run := rfl
@[simp] theorem State.setRaw_labels (s : State) (r : Reg) (v : Byte) : (s.setRaw r v).labels = s.labels := rfl
@[simp] theorem State.setRaw_name (s : State) (r : Reg) (v : Byte) : (s.setRaw r v).name = s.name := rfl
@[simp] theorem State.setRaw_store (s : State) (r : Reg) (v : Byte) : (s.setRaw r v).store = s.store := rfl
@[simp] theorem State.setRaw_agenda (s : State) (r : Reg) (v : Byte) : (s.setRaw r v).agenda = s.agenda := rfl

@[simp] theorem State.memRead_setRaw (s : State) (r : Reg) (v : Byte) (a : Nat) :
    (s.setRaw r v).memRead a = s.memRead a := rfl
@[simp] theorem State.stoRead_setRaw (s : State) (r : Reg) (v : Byte) (a : Nat) :
    (s.setRaw r v).stoRead a = s.stoRead a := rfl
@[simp] theorem State.regionRead_setRaw (s : State) (r : Reg) (v : Byte) (g : Region) (o : Nat) :
    (s.setRaw r v).regionRead g o = s.regionRead g o := rfl
@[simp] theorem State.labelTarget_setRaw (s : State) (r : Reg) (v : Byte) (l : Byte) :
    (s.setRaw r v).labelTarget l = s.labelTarget l := rfl

/-! ## What a driver does -/

@[simp] theorem State.drive_running {s : State} (h : s.run = .running) (d : Turn) : s.drive d = s.driven d := by
  simp [State.drive, h]
@[simp] theorem State.drive_stopped {s : State} (h : s.run = .stopped) (d : Turn) : s.drive d = s := by
  simp [State.drive, h]

/-! ## Updates of the other fields -/

@[simp] theorem State.raw_withMem (s : State) (m : Memory) (r : Reg) : ({ s with mem := m } : State).raw r = s.raw r := rfl
@[simp] theorem State.raw_withSto (s : State) (m : Memory) (r : Reg) : ({ s with sto := m } : State).raw r = s.raw r := rfl
@[simp] theorem State.raw_withStore (s : State) (m : DurableStore) (r : Reg) :
    ({ s with store := m } : State).raw r = s.raw r := rfl
@[simp] theorem State.raw_withRun (s : State) (x : RunState) (r : Reg) : ({ s with run := x } : State).raw r = s.raw r := rfl
@[simp] theorem State.raw_withAgenda (s : State) (x : List Turn) (r : Reg) :
    ({ s with agenda := x } : State).raw r = s.raw r := rfl
@[simp] theorem State.memRead_withSto (s : State) (m : Memory) (a : Nat) :
    ({ s with sto := m } : State).memRead a = s.memRead a := rfl
@[simp] theorem State.stoRead_withMem (s : State) (m : Memory) (a : Nat) :
    ({ s with mem := m } : State).stoRead a = s.stoRead a := rfl
@[simp] theorem State.memRead_withStore (s : State) (m : DurableStore) (a : Nat) :
    ({ s with store := m } : State).memRead a = s.memRead a := rfl
@[simp] theorem State.stoRead_withStore (s : State) (m : DurableStore) (a : Nat) :
    ({ s with store := m } : State).stoRead a = s.stoRead a := rfl
@[simp] theorem State.memRead_withAgenda (s : State) (x : List Turn) (a : Nat) :
    ({ s with agenda := x } : State).memRead a = s.memRead a := rfl
@[simp] theorem State.stoRead_withAgenda (s : State) (x : List Turn) (a : Nat) :
    ({ s with agenda := x } : State).stoRead a = s.stoRead a := rfl

end Sys2Proof.Machine
end

