-- ==== Sys2Proof/Laws/Ops.lean ====
section
/-! SUPPORT. One lemma per shared operation: everything it can do, as what is read afterwards. -/

namespace Sys2Proof.Machine

/-! ## Pairs -/

theorem wordToNumber_lt (w : Address) : wordToNumber w < 65536 := by
  have h := w.high.isLt
  have l := w.low.isLt
  simp only [wordToNumber]
  omega

/-- `wordToNumber` undoes `numberToWord` (00_scope.md R9). -/
theorem wordToNumber_numberToWord (n : Nat) (h : n < 65536) : wordToNumber (numberToWord n) = n := by
  simp only [wordToNumber, numberToWord, BitVec.toNat_ofNat]
  omega

theorem State.raw_setPair (s : State) (h l r : Reg) (w : Address) :
    (s.setPair h l w).raw r = if r = l then w.low else if r = h then w.high else s.raw r := by
  simp [State.setPair, State.raw_setRaw]

theorem State.pair_setPair (s : State) (h l : Reg) (w : Address) (hne : h ≠ l) :
    (s.setPair h l w).pair h l = wordToNumber w := by
  simp [State.pair, State.raw_setPair, hne]

/-- Writing `pc` (00_scope.md R10). -/
theorem State.pc_setPc (s : State) (n : Nat) (h : n < 65536) : (s.setPc n).pc = n := by
  rw [State.pc, State.setPc, State.pair_setPair _ _ _ _ (by decide), wordToNumber_numberToWord n h]

theorem State.pc_lt (s : State) : s.pc < 65536 := wordToNumber_lt _

/-- The advance (40_cycle_and_dispatch.md R144). -/
theorem State.pc_advance (s : State) : s.advance.pc = (s.pc + 1) % 65536 :=
  State.pc_setPc s _ (Nat.mod_lt _ (by decide))

/-! ## Memory and Storage -/

/-- The guarded read of Memory (20_memory.md R62). -/
theorem State.memRead_eq (s : State) (a : Nat) : s.memRead a = if a < 3200 then Memory.read s.mem a else 0 := rfl

/-- The guarded read of Storage (20_memory.md R62). -/
theorem State.stoRead_eq (s : State) (a : Nat) : s.stoRead a = if a < 65536 then Memory.read s.sto a else 0 := rfl

theorem State.memWrite_eq (s : State) (a : Nat) (v : Byte) :
    s.memWrite a v = if a < 3200 then { s with mem := Memory.write s.mem a v } else s := rfl

theorem State.stoWrite_eq (s : State) (a : Nat) (v : Byte) :
    s.stoWrite a v = if a < 65536 then { s with sto := Memory.write s.sto a v } else s := rfl

/-- A byte of Memory after a guarded write (20_memory.md R62, R63). -/
theorem State.memRead_memWrite (s : State) (a b : Nat) (v : Byte) :
    (s.memWrite a v).memRead b = if b = a ∧ a < 3200 then v else s.memRead b := by
  rw [State.memWrite_eq]
  split
  · rename_i h
    rw [State.memRead_eq, State.memRead_eq]
    simp only [Memory.read_write]
    by_cases hb : b = a
    · simp [hb, h]
    · simp [hb]
  · rename_i h
    simp [h]

/-- A byte of Storage after a guarded write (20_memory.md R62, R63). -/
theorem State.stoRead_stoWrite (s : State) (a b : Nat) (v : Byte) :
    (s.stoWrite a v).stoRead b = if b = a ∧ a < 65536 then v else s.stoRead b := by
  rw [State.stoWrite_eq]
  split
  · rename_i h
    rw [State.stoRead_eq, State.stoRead_eq]
    simp only [Memory.read_write]
    by_cases hb : b = a
    · simp [hb, h]
    · simp [hb]
  · rename_i h
    simp [h]

@[simp] theorem State.raw_memWrite (s : State) (a : Nat) (v : Byte) (r : Reg) : (s.memWrite a v).raw r = s.raw r := by
  unfold State.memWrite; split <;> rfl

@[simp] theorem State.raw_stoWrite (s : State) (a : Nat) (v : Byte) (r : Reg) : (s.stoWrite a v).raw r = s.raw r := by
  unfold State.stoWrite; split <;> rfl

@[simp] theorem State.stoRead_memWrite (s : State) (a : Nat) (v : Byte) (b : Nat) :
    (s.memWrite a v).stoRead b = s.stoRead b := by
  unfold State.memWrite; split <;> rfl

@[simp] theorem State.memRead_stoWrite (s : State) (a : Nat) (v : Byte) (b : Nat) :
    (s.stoWrite a v).memRead b = s.memRead b := by
  unfold State.stoWrite; split <;> rfl

/-! ## The frame composes -/

theorem Frame.refl (s : State) (rs : List Reg) (ms ss : List Nat) : Frame s s rs ms ss :=
  ⟨fun _ _ => rfl, fun _ _ => rfl, fun _ _ => rfl, rfl, rfl, rfl, rfl, rfl⟩

theorem Frame.trans {s t u : State} {rs : List Reg} {ms ss : List Nat} (h1 : Frame s t rs ms ss)
    (h2 : Frame t u rs ms ss) : Frame s u rs ms ss :=
  ⟨fun r h => (h2.regs r h).trans (h1.regs r h), fun a h => (h2.mem a h).trans (h1.mem a h),
   fun a h => (h2.sto a h).trans (h1.sto a h), h2.run.trans h1.run, h2.labels.trans h1.labels, h2.name.trans h1.name,
   h2.store.trans h1.store, h2.agenda.trans h1.agenda⟩

theorem Frame.mono {s t : State} {rs rs' : List Reg} {ms ms' ss ss' : List Nat} (h : Frame s t rs ms ss)
    (hr : rs ⊆ rs') (hm : ms ⊆ ms') (hs : ss ⊆ ss') : Frame s t rs' ms' ss' :=
  ⟨fun r n => h.regs r (fun m => n (hr m)), fun a n => h.mem a (fun m => n (hm m)),
   fun a n => h.sto a (fun m => n (hs m)), h.run, h.labels, h.name, h.store, h.agenda⟩

theorem Frame.setRaw (s : State) (r : Reg) (v : Byte) : Frame s (s.setRaw r v) [r] [] [] :=
  ⟨fun _ h => State.raw_setRaw_ne s (by simpa using h) v, fun _ _ => rfl, fun _ _ => rfl, rfl, rfl, rfl, rfl, rfl⟩

theorem Frame.setPair (s : State) (h l : Reg) (w : Address) : Frame s (s.setPair h l w) [h, l] [] [] :=
  ((Frame.setRaw s h w.high).mono (by simp) (by simp) (by simp)).trans
    ((Frame.setRaw _ l w.low).mono (by simp) (by simp) (by simp))

theorem Frame.memWrite (s : State) (a : Nat) (v : Byte) : Frame s (s.memWrite a v) [] [a] [] := by
  refine ⟨fun r _ => s.raw_memWrite a v r, fun b hb => ?_, fun b _ => s.stoRead_memWrite a v b, ?_, ?_, ?_, ?_, ?_⟩
  · rw [State.memRead_memWrite, if_neg (by simp at hb; tauto)]
  all_goals unfold State.memWrite; split <;> rfl

theorem Frame.stoWrite (s : State) (a : Nat) (v : Byte) : Frame s (s.stoWrite a v) [] [] [a] := by
  refine ⟨fun r _ => s.raw_stoWrite a v r, fun b _ => s.memRead_stoWrite a v b, fun b hb => ?_, ?_, ?_, ?_, ?_, ?_⟩
  · rw [State.stoRead_stoWrite, if_neg (by simp at hb; tauto)]
  all_goals unfold State.stoWrite; split <;> rfl

/-! ## The stack (10_state.md R31, R32) -/

theorem State.freeAddr_lt (s : State) : s.freeAddr < 256 := (s.raw .sp).isLt

/-- Everything a push does (10_state.md R31). -/
theorem State.push_spec (s : State) (v : Byte) :
    (s.push v).raw .sp = s.raw .sp + 1 ∧ (s.push v).memRead s.freeAddr = v ∧
      Frame s (s.push v) [.sp] [s.freeAddr] [] := by
  refine ⟨by simp [State.push], ?_, ?_⟩
  · have := s.freeAddr_lt
    simp only [State.push, State.memRead_setRaw]
    rw [State.memRead_memWrite, if_pos ⟨rfl, show s.freeAddr < 3200 by omega⟩]
  · exact ((Frame.memWrite s _ v).mono (by simp) (by simp [State.freeAddr]) (by simp)).trans
      ((Frame.setRaw _ .sp _).mono (by simp) (by simp) (by simp))

/-- Everything a pop does (10_state.md R32). -/
theorem State.pop_spec (s : State) :
    s.pop.1 = s.top ∧ s.pop.2.raw .sp = s.raw .sp - 1 ∧ Frame s s.pop.2 [.sp] [] [] :=
  ⟨rfl, by simp [State.pop], Frame.setRaw s .sp _⟩

/-- Everything the two pops do (00_scope.md R12). -/
theorem State.popTwo_spec (s : State) :
    s.popTwo.1 = s.top ∧ s.popTwo.2.1 = s.second ∧ s.popTwo.2.2.raw .sp = s.raw .sp - 2 ∧
      Frame s s.popTwo.2.2 [.sp] [] [] := by
  have e : s.raw .sp - 1 - 1 = s.raw .sp - 2 := by generalize s.raw .sp = x; bv_omega
  have e1 : (s.setRaw .sp (s.raw .sp - 1)).raw .sp - 1 = s.raw .sp - 2 := by rw [State.raw_setRaw_same, e]
  refine ⟨rfl, ?_, ?_, ?_⟩
  · show s.memRead ((s.setRaw .sp (s.raw .sp - 1)).raw .sp - 1).toNat = s.second
    rw [e1]; rfl
  · show ((s.setRaw .sp (s.raw .sp - 1)).setRaw .sp ((s.setRaw .sp (s.raw .sp - 1)).raw .sp - 1)).raw .sp = _
    rw [State.raw_setRaw_same, e1]
  · exact (Frame.setRaw s .sp _).trans (Frame.setRaw _ .sp _)

/-! ## The regions (20_memory.md R69) -/

theorem regionEnd_le (g : Region) : regionAddr g + regionLen g ≤ 3200 := by cases g <;> decide

theorem State.regionRead_eq (s : State) (g : Region) (o : Nat) :
    s.regionRead g o = if o < regionLen g then s.memRead (regionAddr g + o) else 0 := by
  have := regionEnd_le g
  unfold State.regionRead
  split
  · rw [State.memRead_eq, if_pos (by omega)]
  · rfl

theorem State.regionWrite_eq (s : State) (g : Region) (o : Nat) (v : Byte) :
    s.regionWrite g o v = if o < regionLen g then s.memWrite (regionAddr g + o) v else s := by
  have := regionEnd_le g
  unfold State.regionWrite
  split
  · rw [State.memWrite_eq, if_pos (by omega)]
  · rfl

@[simp] theorem State.raw_regionWrite (s : State) (g : Region) (o : Nat) (v : Byte) (r : Reg) :
    (s.regionWrite g o v).raw r = s.raw r := by
  unfold State.regionWrite; split <;> rfl

/-- A byte of Memory after a region-relative write (20_memory.md R69). -/
theorem State.memRead_regionWrite (s : State) (g : Region) (o : Nat) (v : Byte) (a : Nat) :
    (s.regionWrite g o v).memRead a = if a = regionAddr g + o ∧ o < regionLen g then v else s.memRead a := by
  have := regionEnd_le g
  rw [State.regionWrite_eq]
  by_cases h : o < regionLen g
  · rw [if_pos h, State.memRead_memWrite]
    simp only [h, and_true, show regionAddr g + o < 3200 by omega]
  · simp [h]

theorem Frame.regionWrite (s : State) (g : Region) (o : Nat) (v : Byte) :
    Frame s (s.regionWrite g o v) [] [regionAddr g + o] [] := by
  rw [State.regionWrite_eq]
  split
  · exact Frame.memWrite s _ v
  · exact Frame.refl s _ _ _

/-- A byte of Memory after a whole region is written (20_memory.md R84). -/
theorem State.memRead_regionFill (s : State) (g : Region) (vs : List Byte) (a : Nat) :
    (s.regionFill g vs).memRead a =
      if regionAddr g ≤ a ∧ a < regionAddr g + regionLen g then vs.getD (a - regionAddr g) 0 else s.memRead a := by
  have hend := regionEnd_le g
  have hlen : ((vs ++ List.replicate (regionLen g) (0 : Byte)).take (regionLen g)).length = regionLen g := by simp
  rw [State.memRead_eq, State.memRead_eq]
  simp only [State.regionFill]
  by_cases h : regionAddr g ≤ a ∧ a < regionAddr g + regionLen g
  · rw [if_pos h, if_pos (by omega), Memory.read_writeBlock_inside _ _ _ _ h.1 (by rw [hlen]; exact h.2)]
    have hlt : a - regionAddr g < regionLen g := by omega
    simp only [List.getD_eq_getElem?_getD, List.getElem?_take, hlt, if_true, unlisted]
    by_cases hv : a - regionAddr g < vs.length
    · rw [List.getElem?_append_left hv]
    · rw [List.getElem?_append_right (by omega), List.getElem?_replicate,
        List.getElem?_eq_none (by omega : vs.length ≤ a - regionAddr g)]
      split <;> rfl
  · rw [if_neg h]
    split
    · exact Memory.read_writeBlock_outside _ _ _ _ (by rw [hlen]; omega)
    · rfl

theorem Frame.regionFill (s : State) (g : Region) (vs : List Byte) :
    Frame s (s.regionFill g vs) [] (List.range' (regionAddr g) (regionLen g)) [] := by
  refine ⟨fun _ _ => rfl, fun a h => ?_, fun _ _ => rfl, rfl, rfl, rfl, rfl, rfl⟩
  rw [State.memRead_regionFill, if_neg]
  simpa [List.mem_range'_1] using h

@[simp] theorem State.length_regionBytes (s : State) (g : Region) : (s.regionBytes g).length = regionLen g := by
  simp [State.regionBytes]

/-- The bytes of a whole region read (20_memory.md R84). -/
theorem State.getD_regionBytes (s : State) (g : Region) (k : Nat) (h : k < regionLen g) :
    (s.regionBytes g).getD k 0 = s.memRead (regionAddr g + k) := by
  have := regionEnd_le g
  rw [State.regionBytes, Memory.getD_readBlock _ _ _ _ h]
  rw [State.memRead_eq, if_pos (by omega)]

/-! ## `Norm`, `SetReg` (10_state.md R27, R29) -/

/-- The model's `Norm` is the spec's formula (10_state.md R27). -/
theorem State.norm_spec (s : State) (v : Int) : NormOf s v (s.norm v) := by
  refine ⟨fun h => ?_, fun h => ?_⟩
  · simp only [State.norm, normWith, h, ne_eq, not_true, if_false]
    split
    · rename_i hv; simp; omega
    · split
      · rename_i h1 h2; simp; omega
      · rename_i h1 h2; rw [BitVec.toNat_ofInt]; omega
  · simp only [State.norm, normWith, h, ne_eq, not_false_iff, if_true]
    rw [BitVec.toNat_ofInt]
    omega

theorem State.norm_congr {s t : State} (h : t.raw .wrap = s.raw .wrap) (v : Int) : t.norm v = s.norm v := by
  simp [State.norm, h]

theorem Frame.setReg (s : State) (r : Reg) (v : Int) : Frame s (s.setReg r v) [r] [] [] := Frame.setRaw s r _

@[simp] theorem State.raw_setReg_same (s : State) (r : Reg) (v : Int) : (s.setReg r v).raw r = s.norm v := by
  simp [State.setReg]

theorem State.raw_setReg_ne (s : State) {r q : Reg} (h : q ≠ r) (v : Int) : (s.setReg r v).raw q = s.raw q := by
  simp [State.setReg, State.raw_setRaw, h]

/-! ## Storage written as a block, and the serialised tokens (70_reset_and_hazards.md R282) -/

/-- A byte of Storage after a block is written (70_reset_and_hazards.md R282). -/
theorem State.stoRead_stoWriteBlock (s : State) (a : Nat) (vs : List Byte) (b : Nat) :
    (s.stoWriteBlock a vs).stoRead b =
      if b < 65536 ∧ a ≤ b ∧ b < a + vs.length then vs.getD (b - a) 0 else s.stoRead b := by
  rw [State.stoRead_eq, State.stoRead_eq]
  simp only [State.stoWriteBlock]
  by_cases hb : b < 65536
  · simp only [hb, if_true, true_and]
    by_cases h : a ≤ b ∧ b < a + vs.length
    · rw [if_pos h, Memory.read_writeBlock_inside _ _ _ _ h.1 (by simp; omega)]
      simp [List.getD_eq_getElem?_getD, show b - a < 65536 - a by omega, unlisted]
    · rw [if_neg h]
      exact Memory.read_writeBlock_outside _ _ _ _ (by simp; omega)
  · simp [hb]

theorem length_serialize (ts : List Token) : (serialize ts).length = 2 * ts.length := by
  induction ts with
  | nil => rfl
  | cons t ts ih => simp [serialize, Token.bytes] at *; omega

/-- Token `i` stands at bytes `2i` and `2i + 1` (30_encoding.md R132). -/
theorem getD_serialize (ts : List Token) (i : Nat) (h : i < ts.length) :
    (serialize ts).getD (2 * i) 0 = ts[i].op.ordinal ∧ (serialize ts).getD (2 * i + 1) 0 = ts[i].param := by
  induction ts generalizing i with
  | nil => simp at h
  | cons t ts ih =>
    have e : serialize (t :: ts) = t.op.ordinal :: t.param :: serialize ts := rfl
    rw [e]
    cases i with
    | zero => exact ⟨rfl, rfl⟩
    | succ i => exact ih i (by simpa using h)

@[simp] theorem Regs.get_zero (r : Reg) : Regs.zero.get r = 0 := by cases r <;> rfl

/-! ## The shapes several instructions share -/

/-- A register that a frame keeps. -/
theorem Frame.raw_eq {s t : State} {rs : List Reg} {ms ss : List Nat} (h : Frame s t rs ms ss) (r : Reg)
    (hr : r ∉ rs) : t.raw r = s.raw r := h.regs r hr

theorem Frame.pair_eq {s t : State} {rs : List Reg} {ms ss : List Nat} (h : Frame s t rs ms ss) (x y : Reg)
    (hx : x ∉ rs) (hy : y ∉ rs) : t.pair x y = s.pair x y := by
  simp [State.pair, h.regs x hx, h.regs y hy]

/-- `Norm` reads nothing but the flag, so a frame that keeps the flag keeps it. -/
theorem Frame.norm_eq {s t : State} {rs : List Reg} {ms ss : List Nat} (h : Frame s t rs ms ss) (hw : Reg.wrap ∉ rs)
    (v : Int) : t.norm v = s.norm v := State.norm_congr (h.regs .wrap hw) v

/-- Everything the common shape of arithmetic does (42_arithmetic_and_bitwise.md R170). -/
theorem State.binary_spec (s : State) (f : Byte → Byte → Int) :
    (s.binary f).raw .sp = s.raw .sp - 1 ∧ (s.binary f).memRead s.secondAddr = s.norm (f s.second s.top) ∧
      Frame s (s.binary f) [.sp] [s.secondAddr] [] := by
  obtain ⟨ha, hb, hsp, hf⟩ := s.popTwo_spec
  have hfree : s.popTwo.2.2.freeAddr = s.secondAddr := by simp only [State.freeAddr, State.secondAddr, hsp]
  have e : s.binary f = s.popTwo.2.2.push (s.norm (f s.second s.top)) := by
    show s.popTwo.2.2.push (s.popTwo.2.2.norm (f s.popTwo.2.1 s.popTwo.1)) = _
    rw [ha, hb, hf.norm_eq (by decide)]
  obtain ⟨h1, h2, h3⟩ := s.popTwo.2.2.push_spec (s.norm (f s.second s.top))
  rw [hfree] at h2 h3
  rw [e]
  refine ⟨?_, h2, (hf.mono (by simp) (by simp) (by simp)).trans h3⟩
  rw [h1, hsp]
  generalize s.raw .sp = x
  bv_omega

/-- Everything a taken jump does (43_control_transfer.md R190). -/
theorem State.takeJump_spec (s : State) (l : Byte) :
    (s.takeJump l).rp = s.pc ∧ (s.takeJump l).pc = wordToNumber (s.labelTarget l) ∧
      Frame s (s.takeJump l) [.pch, .pcl, .rph, .rpl] [] [] := by
  refine ⟨?_, ?_, ?_⟩
  · simp [State.takeJump, State.saveReturn, State.rp, State.pc, State.pair, State.raw_setPair]
  · exact State.pair_setPair _ .pch .pcl _ (by decide)
  · exact ((Frame.setPair s .rph .rpl _).mono (by simp) (by simp) (by simp)).trans
      ((Frame.setPair _ .pch .pcl _).mono (by simp) (by simp) (by simp))

theorem State.labelTarget_number (s : State) (l : Byte) :
    wordToNumber (s.labelTarget l) = ((LabelTable.find s.labels l).map wordToNumber).getD 0 := by
  rw [State.labelTarget, if_pos (show l.toNat < params.nlabel from l.isLt)]
  cases LabelTable.find s.labels l <;> rfl

/-- A conditional jump is its two pops, then a jump or nothing (43_control_transfer.md R192). -/
theorem State.jumpIf_eq (s : State) (c : Byte → Byte → Bool) (l : Byte) :
    s.jumpIf c l = if c s.second s.top = true then s.popTwo.2.2.takeJump l else s.popTwo.2.2 := by
  obtain ⟨ha, hb, -, -⟩ := s.popTwo_spec
  show (if c s.popTwo.2.1 s.popTwo.1 = true then s.popTwo.2.2.takeJump l else s.popTwo.2.2) = _
  rw [ha, hb]

end Sys2Proof.Machine
end

