-- ==== Sys2Proof/Laws/Invariant.lean ====
section
/-! SUPPORT. Every shared operation keeps the invariant of the machine (Safety.lean). -/

namespace Sys2Proof.Machine

theorem State.Inv.setRaw {s : State} (h : s.Inv) (r : Reg) (v : Byte) : (s.setRaw r v).Inv :=
  ⟨h.memCanonical, h.memBounded, h.stoCanonical, h.stoBounded, h.labelsMap, h.storeMap, h.agendaWf⟩

theorem State.Inv.setPair {s : State} (h : s.Inv) (x y : Reg) (w : Address) : (s.setPair x y w).Inv :=
  (h.setRaw x _).setRaw y _

theorem State.Inv.setReg {s : State} (h : s.Inv) (r : Reg) (v : Int) : (s.setReg r v).Inv := h.setRaw r _

theorem State.Inv.setRef {s : State} (h : s.Inv) (r : RegRef) (v : Int) : (s.setRef r v).Inv := by
  cases r with
  | slot r => exact h.setReg r v
  | absent n => exact h

theorem State.Inv.withMem {s : State} (h : s.Inv) {m : Memory} (hw : Memory.wf m) (hb : Memory.within 3200 m) :
    ({ s with mem := m } : State).Inv :=
  ⟨hw, hb, h.stoCanonical, h.stoBounded, h.labelsMap, h.storeMap, h.agendaWf⟩

theorem State.Inv.withSto {s : State} (h : s.Inv) {m : Memory} (hw : Memory.wf m) (hb : Memory.within 65536 m) :
    ({ s with sto := m } : State).Inv :=
  ⟨h.memCanonical, h.memBounded, hw, hb, h.labelsMap, h.storeMap, h.agendaWf⟩

theorem State.Inv.memWrite {s : State} (h : s.Inv) (a : Nat) (v : Byte) : (s.memWrite a v).Inv := by
  rw [State.memWrite_eq]
  split
  · rename_i ha
    exact h.withMem (Memory.wf_write _ a v h.memCanonical) (Memory.within_write _ _ a v h.memBounded ha)
  · exact h

theorem State.Inv.stoWrite {s : State} (h : s.Inv) (a : Nat) (v : Byte) : (s.stoWrite a v).Inv := by
  rw [State.stoWrite_eq]
  split
  · rename_i ha
    exact h.withSto (Memory.wf_write _ a v h.stoCanonical) (Memory.within_write _ _ a v h.stoBounded ha)
  · exact h

theorem State.Inv.stoWriteBlock {s : State} (h : s.Inv) (a : Nat) (ha : a ≤ 65536) (vs : List Byte) :
    (s.stoWriteBlock a vs).Inv :=
  h.withSto (Memory.wf_writeBlock _ _ _ h.stoCanonical)
    (Memory.within_writeBlock _ _ _ _ h.stoBounded (by simp; omega))

theorem State.Inv.push {s : State} (h : s.Inv) (v : Byte) : (s.push v).Inv := (h.memWrite _ v).setRaw .sp _

theorem State.Inv.popTwo {s : State} (h : s.Inv) : s.popTwo.2.2.Inv := (h.setRaw .sp _).setRaw .sp _

theorem State.Inv.regionWrite {s : State} (h : s.Inv) (g : Region) (o : Nat) (v : Byte) : (s.regionWrite g o v).Inv := by
  rw [State.regionWrite_eq]
  split
  · exact h.memWrite _ v
  · exact h

theorem State.Inv.regionFill {s : State} (h : s.Inv) (g : Region) (vs : List Byte) : (s.regionFill g vs).Inv := by
  have := regionEnd_le g
  exact h.withMem (Memory.wf_writeBlock _ _ _ h.memCanonical)
    (Memory.within_writeBlock _ _ _ _ h.memBounded (by simp; omega))

theorem State.Inv.serialTake {s : State} (h : s.Inv) : s.serialTake.Inv := by
  unfold State.serialTake
  split
  · exact h.regionWrite _ _ _
  · exact h

theorem State.Inv.serialGive {s : State} (h : s.Inv) (v : Byte) : (s.serialGive v).Inv := by
  unfold State.serialGive
  split
  · exact (h.regionWrite _ _ _).regionWrite _ _ _
  · exact h

/-- Every driver's turn keeps the invariant (20_memory.md R78). -/
theorem State.Inv.drive {s : State} (h : s.Inv) (d : Turn) : (s.drive d).Inv := by
  have driven : (s.driven d).Inv := by
    cases d with
    | serialTake => exact h.serialTake
    | serialGive v => exact h.serialGive v
    | button | timer | serialData | pin => exact h.regionWrite _ _ _
    | engine | loadProgram | run | pause | reset | powerCycle => exact h
  unfold State.drive
  split
  · exact driven
  · exact h

theorem State.Inv.takeJump {s : State} (h : s.Inv) (l : Byte) : (s.takeJump l).Inv :=
  (h.setPair .rph .rpl _).setPair .pch .pcl _

theorem State.Inv.binary {s : State} (h : s.Inv) (f : Byte → Byte → Int) : (s.binary f).Inv := h.popTwo.push _

theorem State.Inv.jumpIf {s : State} (h : s.Inv) (c : Byte → Byte → Bool) (l : Byte) : (s.jumpIf c l).Inv := by
  rw [State.jumpIf_eq]
  split
  · exact h.popTwo.takeJump l
  · exact h.popTwo

/-- Clearing the registers, Memory and Storage keeps the invariant (70_reset_and_hazards.md R282, R283). -/
theorem State.Inv.cleared {s : State} (h : s.Inv) : ({ s with regs := Regs.zero, mem := [] } : State).Inv :=
  ⟨Memory.wf_nil, by simp [Memory.within], h.stoCanonical, h.stoBounded, h.labelsMap, h.storeMap, h.agendaWf⟩

end Sys2Proof.Machine
end

