-- ==== Sys2Proof/Laws/MemoryMap.lean ====
section
/-! SUPPORT. The address decoder is a function: the regions do not overlap (20_memory.md R68). -/

namespace Sys2Proof.Machine

/-- No address lies in two regions. -/
theorem inRegion_unique {g h : Region} {a : Nat} (hg : inRegion g a = true) (hh : inRegion h a = true) : g = h := by
  simp only [inRegion, decide_eq_true_eq] at hg hh
  cases g <;> cases h <;> first | rfl | (simp only [regionAddr, regionLen] at hg hh; omega)

theorem mem_regions (g : Region) : g ∈ regions := by cases g <;> decide

theorem lt_memSize_of_inRegion {g : Region} {a : Nat} (hg : inRegion g a = true) : a < 3200 := by
  simp only [inRegion, decide_eq_true_eq] at hg
  cases g <;> simp only [regionAddr, regionLen] at hg <;> omega

/-- The decoder names a region exactly when the address lies in it. -/
theorem decodeAddress_named (a : Nat) (g : Region) : decodeAddress a = .named g ↔ inRegion g a = true := by
  unfold decodeAddress
  constructor
  · intro h
    split at h
    · split at h
      · rename_i x hx
        have := List.find?_some hx
        simp only [Place.named.injEq] at h
        simpa [h] using this
      · cases h
    · cases h
  · intro h
    rw [if_pos (lt_memSize_of_inRegion h)]
    split
    · rename_i x hx
      have := List.find?_some hx
      exact congrArg Place.named (inRegion_unique (g := x) (by simpa using this) h)
    · rename_i hx
      have := List.find?_eq_none.1 hx g (mem_regions g)
      simp [h] at this

theorem decodeAddress_plain (a : Nat) : decodeAddress a = .plain ↔ a < 3200 ∧ ∀ g, inRegion g a = false := by
  constructor
  · intro h
    refine ⟨?_, fun g => ?_⟩
    · by_contra hn
      unfold decodeAddress at h
      rw [if_neg hn] at h
      cases h
    · cases hg : inRegion g a
      · rfl
      · rw [(decodeAddress_named a g).2 hg] at h
        cases h
  · rintro ⟨h1, h2⟩
    unfold decodeAddress
    rw [if_pos h1]
    split
    · rename_i x hx
      have := List.find?_some hx
      simp [h2] at this
    · rfl

theorem decodeAddress_outside (a : Nat) : decodeAddress a = .outside ↔ 3200 ≤ a := by
  unfold decodeAddress
  constructor
  · intro h
    by_contra hn
    rw [if_pos (show a < params.memSize from Nat.lt_of_not_le hn)] at h
    split at h <;> cases h
  · intro h
    rw [if_neg (show ¬ a < params.memSize from Nat.not_lt.2 h)]

end Sys2Proof.Machine
end

