-- ==== Sys2Proof/Laws/PerInstr.lean ====
section
/-! SUPPORT. The round trip as a statement about one instruction, and one lemma per constructor. -/

namespace Sys2Proof.Laws.RoundTrip

/-- Decoding the two bytes of a well-formed instruction gives it back, and what follows them is left
(30_encoding.md R100, R103). -/
def Statement (i : Instr) : Prop := i.wf = true → ∀ rest, decode (encode i ++ rest) = .ok (i, rest)

end Sys2Proof.Laws.RoundTrip

theorem Sys2Proof.Laws.RoundTrip.zero : Statement .zero := fun _ _ => rfl
theorem Sys2Proof.Laws.RoundTrip.nop : Statement .nop := fun _ _ => rfl
theorem Sys2Proof.Laws.RoundTrip.const (p : Sys2Proof.Byte) : Statement (.const p) := fun _ _ => rfl
theorem Sys2Proof.Laws.RoundTrip.get (r : Sys2Proof.RegRef) : Statement (.get r) := fun h _ => by
  simp only [Sys2Proof.encode, List.cons_append, Sys2Proof.decode, Sys2Proof.decodeToken_get, Sys2Proof.RegRef.ofParam_param r h]
  rfl
theorem Sys2Proof.Laws.RoundTrip.set (r : Sys2Proof.RegRef) : Statement (.set r) := fun h _ => by
  simp only [Sys2Proof.encode, List.cons_append, Sys2Proof.decode, Sys2Proof.decodeToken_set, Sys2Proof.RegRef.ofParam_param r h]
  rfl
theorem Sys2Proof.Laws.RoundTrip.add : Statement .add := fun _ _ => rfl
theorem Sys2Proof.Laws.RoundTrip.sub : Statement .sub := fun _ _ => rfl
theorem Sys2Proof.Laws.RoundTrip.mul : Statement .mul := fun _ _ => rfl
theorem Sys2Proof.Laws.RoundTrip.div : Statement .div := fun _ _ => rfl
theorem Sys2Proof.Laws.RoundTrip.and : Statement .and := fun _ _ => rfl
theorem Sys2Proof.Laws.RoundTrip.or : Statement .or := fun _ _ => rfl
theorem Sys2Proof.Laws.RoundTrip.xor : Statement .xor := fun _ _ => rfl
theorem Sys2Proof.Laws.RoundTrip.jump (l : Sys2Proof.Byte) : Statement (.jump l) := fun _ _ => rfl
theorem Sys2Proof.Laws.RoundTrip.jeq (l : Sys2Proof.Byte) : Statement (.jeq l) := fun _ _ => rfl
theorem Sys2Proof.Laws.RoundTrip.jneq (l : Sys2Proof.Byte) : Statement (.jneq l) := fun _ _ => rfl
theorem Sys2Proof.Laws.RoundTrip.jgt (l : Sys2Proof.Byte) : Statement (.jgt l) := fun _ _ => rfl
theorem Sys2Proof.Laws.RoundTrip.jgte (l : Sys2Proof.Byte) : Statement (.jgte l) := fun _ _ => rfl
theorem Sys2Proof.Laws.RoundTrip.jlt (l : Sys2Proof.Byte) : Statement (.jlt l) := fun _ _ => rfl
theorem Sys2Proof.Laws.RoundTrip.jlte (l : Sys2Proof.Byte) : Statement (.jlte l) := fun _ _ => rfl
theorem Sys2Proof.Laws.RoundTrip.rtn : Statement .rtn := fun _ _ => rfl
theorem Sys2Proof.Laws.RoundTrip.sleep (n : Sys2Proof.Byte) : Statement (.sleep n) := fun _ _ => rfl
theorem Sys2Proof.Laws.RoundTrip.mget (n : Sys2Proof.Byte) : Statement (.mget n) := fun _ _ => rfl
theorem Sys2Proof.Laws.RoundTrip.mset (n : Sys2Proof.Byte) : Statement (.mset n) := fun _ _ => rfl
theorem Sys2Proof.Laws.RoundTrip.sget (n : Sys2Proof.Byte) : Statement (.sget n) := fun _ _ => rfl
theorem Sys2Proof.Laws.RoundTrip.sset (n : Sys2Proof.Byte) : Statement (.sset n) := fun _ _ => rfl
theorem Sys2Proof.Laws.RoundTrip.clear (c : Sys2Proof.Byte) : Statement (.clear c) := fun _ _ => rfl
theorem Sys2Proof.Laws.RoundTrip.draw (c : Sys2Proof.Byte) : Statement (.draw c) := fun _ _ => rfl
theorem Sys2Proof.Laws.RoundTrip.shade : Statement .shade := fun _ _ => rfl
theorem Sys2Proof.Laws.RoundTrip.btn (n : Sys2Proof.Byte) : Statement (.btn n) := fun _ _ => rfl
theorem Sys2Proof.Laws.RoundTrip.btnd (n : Sys2Proof.Byte) : Statement (.btnd n) := fun _ _ => rfl
theorem Sys2Proof.Laws.RoundTrip.tone : Statement .tone := fun _ _ => rfl
theorem Sys2Proof.Laws.RoundTrip.send : Statement .send := fun _ _ => rfl
theorem Sys2Proof.Laws.RoundTrip.recv : Statement .recv := fun _ _ => rfl
theorem Sys2Proof.Laws.RoundTrip.pin (k : Sys2Proof.Byte) : Statement (.pin k) := fun _ _ => rfl
theorem Sys2Proof.Laws.RoundTrip.pout (k : Sys2Proof.Byte) : Statement (.pout k) := fun _ _ => rfl
theorem Sys2Proof.Laws.RoundTrip.save : Statement .save := fun _ _ => rfl
theorem Sys2Proof.Laws.RoundTrip.load : Statement .load := fun _ _ => rfl
theorem Sys2Proof.Laws.RoundTrip.tile : Statement .tile := fun _ _ => rfl
theorem Sys2Proof.Laws.RoundTrip.sprite : Statement .sprite := fun _ _ => rfl
theorem Sys2Proof.Laws.RoundTrip.icon : Statement .icon := fun _ _ => rfl
theorem Sys2Proof.Laws.RoundTrip.print : Statement .print := fun _ _ => rfl
end

