-- ==== Sys2Proof/Laws/Step.lean ====
section
/-! SUPPORT. What a step can do, said once: a turn from outside, nothing while stopped, a stall, or the decoded token. -/

namespace Sys2Proof.Machine

/-- The engine's turn of a stepping machine differs from the state only in the agenda. -/
theorem State.EngineTurn.reads {s s' : State} (h : s.EngineTurn s') :
    s'.pc = s.pc ∧ (∀ r, s'.raw r = s.raw r) ∧ (∀ a, s'.memRead a = s.memRead a) ∧ ∀ a, s'.stoRead a = s.stoRead a := by
  obtain ⟨-, ⟨-, rfl⟩ | ⟨rest, -, rfl⟩⟩ := h <;> exact ⟨rfl, fun _ => rfl, fun _ => rfl, fun _ => rfl⟩

/-- On the engine's turn a step is a cycle (40_cycle_and_dispatch.md R152). -/
theorem step_engineTurn {s s' : State} (h : s.EngineTurn s') : step s = s'.cycle := by
  obtain ⟨hr, ⟨ha, rfl⟩ | ⟨rest, ha, rfl⟩⟩ := h <;>
    simp only [step, State.takeTurn, ha, State.engineTurn, hr]

/-- A cycle with a running sleep counter is a stall (40_cycle_and_dispatch.md R142). -/
theorem step_stall {s s' : State} (h : s.EngineTurn s') (hs : s.raw .slp ≠ 0) : step s = .next s'.stall := by
  rw [step_engineTurn h, State.cycle, if_pos (by rw [h.reads.2.1]; exact hs)]

/-- A cycle without one runs the token at `pc` (40_cycle_and_dispatch.md R140). -/
theorem step_runToken {s s' : State} (h : s.EngineTurn s') (hs : s.raw .slp = 0) :
    step s = s'.runToken (decodeToken (s.stoRead (2 * s.pc)) (s.stoRead (2 * s.pc + 1))) := by
  rw [step_engineTurn h, State.cycle, if_neg (by rw [h.reads.2.1]; simpa using hs)]
  simp only [State.fetchOpcode, State.fetchParam, h.reads.1, h.reads.2.2.2]

/-- On the engine's turn nothing happens while stopped (40_cycle_and_dispatch.md R152). -/
theorem step_stopped {s s' : State} (h : s.TurnTaken s') (hr : s.run = .stopped) : step s = .next s' := by
  obtain ⟨ha, rfl⟩ | ⟨rest, ha, rfl⟩ := h <;> simp only [step, State.takeTurn, ha, State.engineTurn, hr]

/-- An agent outside the core takes its turn. -/
theorem step_outside {s : State} {d : Turn} {rest : List Turn} (ha : s.agenda = d :: rest) (hd : d ≠ .engine) :
    step s = .next (State.outsideTurn { s with agenda := rest } d) := by
  cases d <;> first | exact absurd rfl hd | simp only [step, State.takeTurn, ha]

theorem outsideTurn_driver (s : State) {d : Turn} {g : Region} (hd : d.ownRegion = some g) :
    s.outsideTurn d = s.drive d := by
  cases d <;> first | rfl | exact nomatch hd

theorem Turn.ne_engine {d : Turn} {g : Region} (hd : d.ownRegion = some g) : d ≠ .engine := by
  rintro rfl
  exact nomatch hd

/-- A driver's turn while the engine runs (20_memory.md R78). -/
theorem step_driver {s : State} {d : Turn} {g : Region} {rest : List Turn} (ha : s.agenda = d :: rest)
    (hd : d.ownRegion = some g) (hr : s.run = .running) :
    step s = .next (State.driven { s with agenda := rest } d) := by
  rw [step_outside ha (Turn.ne_engine hd), outsideTurn_driver _ hd, State.drive_running (by exact hr)]

/-- A driver's turn while the engine is stopped (40_cycle_and_dispatch.md R152). -/
theorem step_driver_stopped {s : State} {d : Turn} {g : Region} {rest : List Turn} (ha : s.agenda = d :: rest)
    (hd : d.ownRegion = some g) (hr : s.run = .stopped) : step s = .next { s with agenda := rest } := by
  rw [step_outside ha (Turn.ne_engine hd), outsideTurn_driver _ hd, State.drive_stopped (by exact hr)]

/-- A driver's turn that is one region-relative write (20_memory.md R78). -/
theorem turnWrites_region {s : State} {d : Turn} {rest : List Turn} {g : Region} (ha : s.agenda = d :: rest)
    (hd : d.ownRegion = some g) (hr : s.run = .running) (o : Nat) (v : Byte) (ho : o < regionLen g)
    (he : State.driven { s with agenda := rest } d = State.regionWrite { s with agenda := rest } g o v) :
    TurnWrites s rest [(regionAddr g + o, v)] := by
  refine ⟨_, step_driver ha hd hr, ?_, ?_⟩ <;> rw [he]
  · simp [State.memRead_regionWrite, ho]
  · exact Frame.regionWrite _ g o v

/-- A turn from outside that does nothing but be taken. -/
theorem turnWrites_nothing {s : State} {rest : List Turn} (he : step s = .next { s with agenda := rest }) :
    TurnWrites s rest [] := ⟨_, he, by simp, Frame.refl _ _ _ _⟩

/-- Whose turn it is. -/
theorem turn_cases (s : State) : (∃ d rest, s.agenda = d :: rest ∧ d ≠ .engine) ∨ ∃ s', s.TurnTaken s' := by
  cases ha : s.agenda with
  | nil => exact .inr ⟨s, .inl ⟨ha, rfl⟩⟩
  | cons d rest =>
    by_cases hd : d = .engine
    · exact .inr ⟨_, .inr ⟨rest, hd ▸ ha, rfl⟩⟩
    · exact .inl ⟨d, rest, rfl, hd⟩

/-- Every token but `ZERO` runs after the advance (40_cycle_and_dispatch.md R140, steps 4 and 5). -/
theorem State.runToken_ok (s : State) {i : Instr} (h : i ≠ .zero) : s.runToken (.ok i) = exec i s.advance := by
  cases i <;> first | exact absurd rfl h | rfl

theorem State.runToken_zero (s : State) : s.runToken (.ok .zero) = .next s.originReset := rfl

theorem State.runToken_error (s : State) (e : Reject) : s.runToken (.error e) = .next s.advance := rfl

/-- Every step is one of four: the turn of an agent outside the core, nothing while stopped, a stall, or a token run. -/
theorem step_cases (s : State) :
    (∃ d rest, s.agenda = d :: rest ∧ d ≠ .engine ∧ step s = .next (State.outsideTurn { s with agenda := rest } d)) ∨
    (∃ s', s.TurnTaken s' ∧ s.run = .stopped ∧ step s = .next s') ∨
    (∃ s', s.EngineTurn s' ∧ s.raw .slp ≠ 0 ∧ step s = .next s'.stall) ∨
    (∃ s', s.EngineTurn s' ∧ s.raw .slp = 0 ∧
      step s = s'.runToken (decodeToken (s.stoRead (2 * s.pc)) (s.stoRead (2 * s.pc + 1)))) := by
  obtain ⟨d, rest, ha, hd⟩ | ⟨s', h⟩ := turn_cases s
  · exact .inl ⟨d, rest, ha, hd, step_outside ha hd⟩
  · cases hr : s.run with
    | stopped => exact .inr (.inl ⟨s', h, rfl, step_stopped h hr⟩)
    | running =>
      have he : s.EngineTurn s' := ⟨hr, h⟩
      by_cases hs : s.raw .slp = 0
      · exact .inr (.inr (.inr ⟨s', he, hs, step_runToken he hs⟩))
      · exact .inr (.inr (.inl ⟨s', he, hs, step_stall he hs⟩))

end Sys2Proof.Machine
end

