-- ==== Sys2Proof/Tests/Slice0.lean ====
section
/-! SUPPORT. Tests, each one step on a small state. The expected values are the vectors of spec/95_test_vectors.md, which the
spec derives from its rules by hand, unless a comment says otherwise; the words are written out from 30_encoding.md R104.
After them, a witness for the hypotheses of every statement that has some. -/

namespace Sys2Proof.Tests
open Sys2Proof.Machine

/-! ## Small states -/

/-- Right after a load of nothing: all zero, running. -/
def base : State := { State.reset with run := .running }

/-- Bytes at an address of Memory. -/
def poke (s : State) (a : Nat) (vs : List Byte) : State := { s with mem := Memory.writeBlock s.mem a vs }

/-- A stack, bottom first. -/
def stack (vs : List Byte) : State := (poke base 0 vs).setRaw .sp (BitVec.ofNat 8 vs.length)

/-- The state with bytes of Storage from token index `n` on, and `pc = n`. -/
def code (s : State) (n : Nat) (vs : List Byte) : State := (s.setPc n).stoWriteBlock (2 * n) vs

/-- The state in wrap mode. -/
def wrapped (s : State) : State := s.setRaw .wrap 1

/-- Observe the next state. -/
def look {α : Type} (o : Host.Outcome State Fault Refusal) (f : State → α) : Option α :=
  match o with
  | .next t => some (f t)
  | _ => none

/-- Run the token whose bytes are given, at token 0 of a state, and observe. -/
def run1 {α : Type} (s : State) (o p : Byte) (f : State → α) : Option α := look (step (code s 0 [o, p])) f

/-! ## Well-formedness refuses -/

/-- Ordinal 4 is `SP` (10_state.md R21): `absent 4` stands for nothing. -/
theorem test_wf_refuses_absent_named : Instr.wf (.get (.absent 4)) = false ∧ Instr.wf (.set (.absent 12)) = false := by
  decide

theorem test_wf_accepts : Instr.wf (.get (.absent 13)) = true ∧ Instr.wf (.set (.slot .wrap)) = true := by decide

/-- Two entries of one label id, and ids that fall: no table of 10_state.md R43. -/
theorem test_wf_refuses_labels :
    Image.wf ⟨"", [], [(1, ⟨0, 0⟩), (1, ⟨0, 1⟩)], []⟩ = false ∧
      Image.wf ⟨"", [], [(2, ⟨0, 0⟩), (1, ⟨0, 1⟩)], []⟩ = false := by decide

theorem test_wf_accepts_labels : Image.wf ⟨"", [], [(0, ⟨0, 0⟩), (255, ⟨0, 1⟩)], []⟩ = true := by decide

/-! ## Decoding: a word for every constructor, written out from the table of 30_encoding.md R104 -/

theorem test_decode_idle :
    decodeTableWord 16 0b0000000010101011 = some .zero ∧
    decodeTableWord 16 0b0000000100000000 = some .nop ∧
    decodeTableWord 16 0b0010010100000000 = some .tile ∧
    decodeTableWord 16 0b0010011000000000 = some .sprite ∧
    decodeTableWord 16 0b0010011100000011 = some .icon ∧
    decodeTableWord 16 0b0010100000000000 = some .print := by
  decide

theorem test_decode_moves :
    decodeTableWord 16 0b0000001000000011 = some (.const 3) ∧
    decodeTableWord 16 0b0000001100000011 = some (.get (.slot .pcl)) ∧
    decodeTableWord 16 0b0000001100001101 = some (.get (.absent 13)) ∧
    decodeTableWord 16 0b0000010000001100 = some (.set (.slot .wrap)) ∧
    decodeTableWord 16 0b0000010011001000 = some (.set (.absent 200)) := by
  decide

theorem test_decode_arithmetic :
    decodeTableWord 16 0b0000010101110111 = some .add ∧
    decodeTableWord 16 0b0000011000000000 = some .sub ∧
    decodeTableWord 16 0b0000011100000000 = some .mul ∧
    decodeTableWord 16 0b0000100000000000 = some .div ∧
    decodeTableWord 16 0b0000100100000000 = some .and ∧
    decodeTableWord 16 0b0000101000000000 = some .or ∧
    decodeTableWord 16 0b0000101111111111 = some .xor := by
  decide

theorem test_decode_control :
    decodeTableWord 16 0b0000110000000111 = some (.jump 7) ∧
    decodeTableWord 16 0b0000110100000001 = some (.jeq 1) ∧
    decodeTableWord 16 0b0000111000000001 = some (.jneq 1) ∧
    decodeTableWord 16 0b0000111100000001 = some (.jgt 1) ∧
    decodeTableWord 16 0b0001000000000001 = some (.jgte 1) ∧
    decodeTableWord 16 0b0001000100000001 = some (.jlt 1) ∧
    decodeTableWord 16 0b0001001011111111 = some (.jlte 255) ∧
    decodeTableWord 16 0b0001001100000000 = some .rtn ∧
    decodeTableWord 16 0b0001010000000011 = some (.sleep 3) := by
  decide

theorem test_decode_access :
    decodeTableWord 16 0b0001010111111111 = some (.mget 255) ∧
    decodeTableWord 16 0b0001011000100101 = some (.mset 37) ∧
    decodeTableWord 16 0b0001011100000011 = some (.sget 3) ∧
    decodeTableWord 16 0b0001100000000010 = some (.sset 2) := by
  decide

theorem test_decode_peripheral :
    decodeTableWord 16 0b0001100100000010 = some (.clear 2) ∧
    decodeTableWord 16 0b0001101000000001 = some (.draw 1) ∧
    decodeTableWord 16 0b0001101100000000 = some .shade ∧
    decodeTableWord 16 0b0001110000000011 = some (.btn 3) ∧
    decodeTableWord 16 0b0001110100000000 = some (.btnd 0) ∧
    decodeTableWord 16 0b0001111000000000 = some .tone ∧
    decodeTableWord 16 0b0001111100000000 = some .send ∧
    decodeTableWord 16 0b0010000000000000 = some .recv ∧
    decodeTableWord 16 0b0010000100010000 = some (.pin 16) ∧
    decodeTableWord 16 0b0010001000000000 = some (.pout 0) ∧
    decodeTableWord 16 0b0010001100000000 = some .save ∧
    decodeTableWord 16 0b0010010000000000 = some .load := by
  decide

theorem test_decode_unassigned : decodeTableWord 16 0x2900 = none ∧ decodeTableWord 16 0xFF12 = none := by decide

theorem test_decode_truncated : decode [0x02] = .error .truncated := rfl

/-- The program of S1 (95_test_vectors.md): the encoder's bytes. -/
theorem test_encode_s1 : (encode (.const 3) ++ encode (.const 4) ++ encode .add) = [0x02, 0x03, 0x02, 0x04, 0x05, 0x00] := by
  decide

/-- The placed word is the one the next step fetches. -/
theorem test_withFetchWord : step (State.reset.withFetchWord 16 0x0203) =
    exec (.const 3) (State.reset.withFetchWord 16 0x0203).advance := rfl

/-! ## The cycle (V-CYC) -/

theorem test_cyc_1_nop : look (step (code base 7 [0x01, 0x00])) State.pc = some 8 := by decide

theorem test_cyc_2_stall :
    look (step ((code base 5 [0x02, 0x09]).setRaw .slp 3)) (fun t => (t.pc, t.raw .slp, t.raw .sp)) =
      some (5, 2, 0) := by decide

theorem test_cyc_4_origin_reset : look (step (code base 3 [0x00, 0xAB])) State.pc = some 0 := by decide

theorem test_cyc_5_unassigned :
    look (step (code (stack [1, 2]) 3 [0xFF, 0x12])) (fun t => (t.pc, t.raw .sp, t.memRead 0, t.memRead 1)) =
      some (4, 2, 1, 2) := by decide

theorem test_cyc_6_first_unassigned : look (step (code base 1 [0x29, 0x00])) State.pc = some 2 := by decide

theorem test_cyc_7_beyond_storage : look (step ((base.setRaw .pch 128).setRaw .pcl 0)) State.pc = some 0 := by decide

theorem test_cyc_8_last_token : look (step (code base 32767 [0x01, 0x00])) State.pc = some 32768 := by decide

theorem test_cyc_10_stopped : step State.reset = .next State.reset := rfl

/-! ## Instructions -/

/-- The labels and the return pointer of V-JMP. -/
def jumper (s : State) : State := { s.setRaw .rpl 77 with labels := [(0, ⟨0, 0⟩), (1, ⟨0, 9⟩), (2, ⟨128, 0⟩)] }

theorem test_const_mov_2 :
    run1 (wrapped base) 0x02 0xFF (fun t => (t.memRead 0, t.raw .sp)) = some (255, 1) := by
  decide

theorem test_const_mov_3 :
    run1 (base.setRaw .sp 255) 0x02 0x08 (fun t => (t.memRead 255, t.raw .sp)) = some (8, 0) := by
  decide

theorem test_get_mov_7 :
    run1 (poke base 0 [77]) 0x03 0x0D (fun t => (t.memRead 0, t.raw .sp)) = some (0, 1) := by
  decide

theorem test_get_mov_8 :
    run1 (wrapped (base.setRaw .a 255)) 0x03 0x00 (fun t => (t.memRead 0, t.raw .a)) = some (0, 255) := by
  decide

theorem test_set_mov_12 :
    run1 (wrapped (stack [255])) 0x04 0x0C (fun t => (t.raw .wrap, t.raw .sp)) = some (0, 0) := by
  decide

theorem test_set_mov_13 :
    run1 (stack [1, 2, 100]) 0x04 0x04 (fun t => (t.raw .sp)) = some 100 := by
  decide

theorem test_add_3 :
    run1 (stack [5]) 0x05 0x00 (fun t => (t.memRead 255, t.raw .sp, t.memRead 0)) = some (5, 0, 5) := by
  decide

theorem test_add_wrap :
    run1 (wrapped (stack [254, 1])) 0x05 0x00 (fun t => (t.memRead 0, t.raw .sp, t.memRead 1)) = some (0, 1, 1) := by
  decide

theorem test_sub_clamp :
    run1 (stack [3, 5]) 0x06 0x00 (fun t => (t.memRead 0, t.raw .sp)) = some (0, 1) := by
  decide

theorem test_sub_wrap :
    run1 (wrapped (stack [3, 5])) 0x06 0x00 (fun t => (t.memRead 0, t.raw .sp)) = some (253, 1) := by
  decide

theorem test_mul_small :
    run1 (stack [6, 7]) 0x07 0x00 (fun t => (t.memRead 0, t.raw .sp)) = some (42, 1) := by
  decide

/-- By hand: 17*16 = 272, above 255 (42_arithmetic_and_bitwise.md R173). -/
theorem test_mul_clamp :
    run1 (stack [17, 16]) 0x07 0x00 (fun t => (t.memRead 0)) = some 255 := by
  decide

theorem test_div_half_up :
    run1 (stack [5, 2]) 0x08 0x00 (fun t => (t.memRead 0, t.raw .sp)) = some (3, 1) := by
  decide

/-- 42_arithmetic_and_bitwise.md R174. -/
theorem test_div_zero :
    run1 (stack [7, 0]) 0x08 0x00 (fun t => (t.memRead 0, t.raw .sp)) = some (255, 1) := by
  decide

theorem test_and_wrap :
    run1 (wrapped (stack [255, 255])) 0x09 0x00 (fun t => (t.memRead 0, t.raw .sp)) = some (0, 1) := by
  decide

theorem test_or_bits :
    run1 (stack [204, 170]) 0x0A 0x00 (fun t => (t.memRead 0, t.raw .sp)) = some (238, 1) := by
  decide

theorem test_xor_bits :
    run1 (stack [204, 170]) 0x0B 0x00 (fun t => (t.memRead 0, t.raw .sp)) = some (102, 1) := by
  decide

theorem test_jeq_down :
    look (step (code (jumper (stack [5, 3])) 4 [0x0D, 0x01])) (fun t => (t.pc, t.rp, t.raw .sp)) = some (5, 77, 0) := by
  decide

theorem test_jeq_up :
    look (step (code (jumper (stack [3, 5])) 4 [0x0D, 0x01])) (fun t => (t.pc, t.rp, t.raw .sp)) = some (5, 77, 0) := by
  decide

theorem test_jneq_down :
    look (step (code (jumper (stack [5, 3])) 4 [0x0E, 0x01])) (fun t => (t.pc, t.rp, t.raw .sp)) = some (9, 5, 0) := by
  decide

theorem test_jneq_up :
    look (step (code (jumper (stack [3, 5])) 4 [0x0E, 0x01])) (fun t => (t.pc, t.rp, t.raw .sp)) = some (9, 5, 0) := by
  decide

theorem test_jgt_down :
    look (step (code (jumper (stack [5, 3])) 4 [0x0F, 0x01])) (fun t => (t.pc, t.rp, t.raw .sp)) = some (9, 5, 0) := by
  decide

theorem test_jgt_up :
    look (step (code (jumper (stack [3, 5])) 4 [0x0F, 0x01])) (fun t => (t.pc, t.rp, t.raw .sp)) = some (5, 77, 0) := by
  decide

theorem test_jgte_down :
    look (step (code (jumper (stack [5, 3])) 4 [0x10, 0x01])) (fun t => (t.pc, t.rp, t.raw .sp)) = some (9, 5, 0) := by
  decide

theorem test_jgte_up :
    look (step (code (jumper (stack [3, 5])) 4 [0x10, 0x01])) (fun t => (t.pc, t.rp, t.raw .sp)) = some (5, 77, 0) := by
  decide

theorem test_jlt_down :
    look (step (code (jumper (stack [5, 3])) 4 [0x11, 0x01])) (fun t => (t.pc, t.rp, t.raw .sp)) = some (5, 77, 0) := by
  decide

theorem test_jlt_up :
    look (step (code (jumper (stack [3, 5])) 4 [0x11, 0x01])) (fun t => (t.pc, t.rp, t.raw .sp)) = some (9, 5, 0) := by
  decide

theorem test_jlte_down :
    look (step (code (jumper (stack [5, 3])) 4 [0x12, 0x01])) (fun t => (t.pc, t.rp, t.raw .sp)) = some (5, 77, 0) := by
  decide

theorem test_jlte_up :
    look (step (code (jumper (stack [3, 5])) 4 [0x12, 0x01])) (fun t => (t.pc, t.rp, t.raw .sp)) = some (9, 5, 0) := by
  decide

theorem test_mget_3 :
    run1 ((base.setRaw .mph 12).setRaw .mpl 127) 0x15 0x01 (fun t => (t.memRead 0, t.raw .sp)) = some (0, 1) := by
  decide

theorem test_mget_5 :
    run1 (poke (stack [1, 2, 3, 4]) 4 [77]) 0x15 0x04 (fun t => (t.memRead 4, t.raw .sp)) = some (77, 5) := by
  decide

theorem test_mset_6 :
    run1 (((stack [3]).setRaw .mph 2).setRaw .mpl 128) 0x16 0x25 (fun t => (t.memRead 677, t.raw .sp)) = some (3, 0) := by
  decide

theorem test_mset_8 :
    run1 (stack [8, 9]) 0x16 0x00 (fun t => (t.memRead 0, t.raw .sp)) = some (9, 1) := by
  decide

theorem test_sget_10 :
    run1 (((base.stoWrite 65535 9).setRaw .sth 255).setRaw .stl 255) 0x17 0x00 (fun t => (t.memRead 0, t.raw .sp)) = some (9, 1) := by
  decide

theorem test_sget_11 :
    run1 (((base.stoWrite 65535 9).setRaw .sth 255).setRaw .stl 255) 0x17 0x01 (fun t => (t.memRead 0, t.raw .sp)) = some (0, 1) := by
  decide

theorem test_sset_12 :
    run1 ((stack [9]).setRaw .sth 16) 0x18 0x00 (fun t => (t.stoRead 4096, t.raw .sp)) = some (9, 0) := by
  decide

theorem test_sset_13 :
    run1 (((stack [9]).setRaw .sth 255).setRaw .stl 255) 0x18 0x01 (fun t => (t.stoRead 65535, t.raw .sp)) = some (0, 0) := by
  decide

theorem test_clear_2 :
    run1 base 0x19 0xC8 (fun t => (t.memRead 639, t.memRead 640, t.memRead 1151, t.memRead 1152)) = some (0, 200, 200, 0) := by
  decide +kernel

theorem test_draw_3 :
    run1 (stack [5, 3]) 0x1A 0x01 (fun t => (t.memRead 741, t.raw .sp)) = some (1, 0) := by
  decide

theorem test_draw_5 :
    run1 (stack [0, 16]) 0x1A 0x01 (fun t => (t.memRead 1152, t.raw .sp)) = some (0, 0) := by
  decide

theorem test_shade_9 :
    run1 (poke (stack [5, 3]) 741 [1]) 0x1B 0x00 (fun t => (t.raw .a, t.raw .sp)) = some (1, 0) := by
  decide

theorem test_shade_11 :
    run1 (wrapped ((poke (stack [0, 0]) 640 [255]).setRaw .a 9)) 0x1B 0x00 (fun t => (t.raw .a)) = some 0 := by
  decide

theorem test_btn_15 :
    run1 (poke base 512 [7]) 0x1C 0x00 (fun t => (t.raw .a)) = some 255 := by
  decide

theorem test_btn_16 :
    run1 ((poke base 515 [1]).setRaw .a 9) 0x1C 0x03 (fun t => (t.raw .a)) = some 0 := by
  decide

theorem test_btnd_18_pressed :
    run1 (poke base 512 [1]) 0x1D 0x00 (fun t => (t.raw .a)) = some 255 := by
  decide

theorem test_btnd_18_held :
    run1 ((poke base 512 [2]).setRaw .a 9) 0x1D 0x00 (fun t => (t.raw .a)) = some 0 := by
  decide

theorem test_tone_19 :
    run1 (stack [1, 184]) 0x1E 0x00 (fun t => (t.memRead 520, t.memRead 521, t.toneFrequency, t.raw .sp)) = some (1, 184, 440, 0) := by
  decide

theorem test_send_20 :
    run1 (stack [65]) 0x1F 0x00 (fun t => (t.memRead 528, t.memRead 529, t.raw .a, t.raw .sp)) = some (65, 1, 255, 0) := by
  decide

theorem test_send_22 :
    run1 ((poke (stack [65]) 528 [7, 2]).setRaw .a 9) 0x1F 0x00 (fun t => (t.memRead 528, t.memRead 529, t.raw .a, t.raw .sp)) = some (7, 2, 0, 0) := by
  decide

theorem test_recv_23 :
    run1 (poke base 528 [7, 2]) 0x20 0x00 (fun t => (t.raw .a, t.raw .b, t.memRead 529, t.memRead 528)) = some (7, 255, 0, 7) := by
  decide

theorem test_recv_25 :
    run1 (((poke base 528 [7, 1]).setRaw .a 4).setRaw .b 4) 0x20 0x00 (fun t => (t.raw .b, t.raw .a, t.memRead 529)) = some (0, 4, 1) := by
  decide

theorem test_pin_26 :
    run1 (poke base 547 [1]) 0x21 0x03 (fun t => (t.raw .a)) = some 1 := by
  decide

theorem test_pin_27 :
    run1 ((poke base 560 [5]).setRaw .a 9) 0x21 0x10 (fun t => (t.raw .a)) = some 0 := by
  decide

theorem test_pout_28 :
    run1 (stack [1]) 0x22 0x00 (fun t => (t.memRead 544, t.raw .sp)) = some (1, 0) := by
  decide

theorem test_pout_29 :
    run1 (stack [1]) 0x22 0x10 (fun t => (t.memRead 560, t.raw .sp)) = some (0, 0) := by
  decide

theorem test_save_30 :
    run1 { poke base 1152 [1, 2] with name := "P", store := [("P", [9])] } 0x23 0x00 (fun t => ((DurableStore.get t.store "P").map (·.take 3), t.store.length)) = some (some [1, 2, 0], 1) := by
  decide +kernel

theorem test_load_s5 :
    run1 { poke base 1152 [9, 9] with name := "P", store := [("P", [1, 2])] } 0x24 0x00 (fun t => (t.memRead 1152, t.memRead 1153, t.memRead 1154)) = some (1, 2, 0) := by
  decide +kernel

theorem test_load_s5_unknown :
    run1 { poke base 1152 [9, 9] with name := "Q", store := [("P", [1, 2])] } 0x24 0x00 (fun t => (t.memRead 1152, t.memRead 1407)) = some (0, 0) := by
  decide +kernel

theorem test_icon_32 :
    run1 ((stack [1, 2]).setRaw .a 4) 0x27 0x03 (fun t => (t.pc, t.raw .sp, t.raw .a, t.memRead 524)) = some (1, 2, 4, 0) := by
  decide

theorem test_tile_33 :
    run1 ((stack [1, 2]).setRaw .a 4) 0x25 0x00 (fun t => (t.pc, t.raw .sp, t.raw .a)) = some (1, 2, 4) := by
  decide

theorem test_sprite_33 :
    run1 ((stack [1, 2]).setRaw .a 4) 0x26 0x00 (fun t => (t.pc, t.raw .sp, t.raw .a)) = some (1, 2, 4) := by
  decide

theorem test_print_33 :
    run1 ((stack [1, 2]).setRaw .a 4) 0x28 0x00 (fun t => (t.pc, t.raw .sp, t.raw .a)) = some (1, 2, 4) := by
  decide

theorem test_jump_2 :
    look (step (code (jumper base) 2 [0x0C, 0x07])) (fun t => (t.pc, t.rp)) = some (0, 3) := by decide

theorem test_jump_3 :
    look (step (code (jumper base) 2 [0x0C, 0x02])) (fun t => (t.pc, t.rp)) = some (32768, 3) := by decide

theorem test_rtn_4 :
    look (step (code (base.setRaw .rpl 3) 6 [0x13, 0x00])) (fun t => (t.pc, t.rp)) = some (3, 3) := by decide

theorem test_sleep_7 :
    look (step (code base 5 [0x14, 0x03])) (fun t => (t.pc, t.raw .slp)) = some (6, 3) := by decide

theorem test_sleep_9 :
    look (step (code (wrapped base) 0 [0x14, 0xFF])) (fun t => (t.pc, t.raw .slp)) = some (1, 0) := by decide

/-! ## The agents outside the core (V-RST) -/

/-- V-RST 4: the tokens overwrite the initial bytes. -/
theorem test_load_4 :
    look (step { base with agenda := [.loadProgram ⟨"P", [9, 9, 9, 9], [], [⟨.nop, 0⟩]⟩] })
      (fun t => (t.stoRead 0, t.stoRead 1, t.stoRead 2, t.stoRead 3, t.run)) = some (1, 0, 9, 9, .running) := by decide

/-- V-RST 2. -/
theorem test_reset_2 :
    look (step { (stack [7]).setPc 3 with agenda := [.reset], name := "P" })
      (fun t => (t.pc, t.raw .sp, t.memRead 0, t.run, t.name)) = some (0, 0, 0, .running, "P") := by decide

/-- 60_exceptions.md R272: the store outlives a power cycle, the loaded program does not. -/
theorem test_power_cycle :
    look (step { stack [7] with agenda := [.powerCycle], name := "P", store := [("P", [1])] })
      (fun t => (t.raw .sp, t.memRead 0, t.run, t.name, DurableStore.get t.store "P")) =
        some (0, 0, .stopped, "", some [1]) := by decide

/-- 45_peripheral_instructions.md R230: the device frees the line. -/
theorem test_serial_take :
    look (step { poke base 528 [65, 1] with agenda := [.serialTake] }) (fun t => (t.memRead 528, t.memRead 529)) =
      some (65, 0) := by decide

/-- 45_peripheral_instructions.md R230: the device gives a byte. -/
theorem test_serial_give :
    look (step { base with agenda := [.serialGive 7] }) (fun t => (t.memRead 528, t.memRead 529)) = some (7, 2) := by
  decide

/-! ## The assembler (V-ASM) -/

/-- Source text to Storage bytes and labels. -/
def asm (source : String) : List Byte × LabelTable := ((serialize (assemble source.toList).1), (assemble source.toList).2)

theorem test_asm_1 : asm "$SPEED 5\nCONST $SPEED" =
    ([0x01, 0x05, 0x02, 0x05], []) := by decide

theorem test_asm_2 : asm "CONST $X\n$X 9" =
    ([0x02, 0x09, 0x01, 0x09], []) := by decide

theorem test_asm_3 : asm "CONST SP" =
    ([0x02, 0x04], []) := by decide

theorem test_asm_4 : asm "CONST -1\nCONST 300" =
    ([0x02, 0xFF, 0x02, 0x2C], []) := by decide

theorem test_asm_5 : asm "JUMP END\n:START\n:END" =
    ([0x0C, 0x00, 0x01, 0x00, 0x01, 0x00], [(0, ⟨0, 1⟩), (1, ⟨0, 2⟩)]) := by decide

theorem test_asm_6 : asm ":A\n:B\nJUMP B\nJUMP A" =
    ([0x01, 0x00, 0x01, 0x00, 0x0C, 0x01, 0x0C, 0x00], [(0, ⟨0, 0⟩), (1, ⟨0, 1⟩)]) := by decide

theorem test_asm_7 : asm "# c\n\nCONST 1\n# d\nADD" =
    ([0x02, 0x01, 0x05, 0x00], []) := by decide

theorem test_asm_8 : asm "GET WRAP\nSET FOO" =
    ([0x03, 0x0C, 0x04, 0x00], []) := by decide

theorem test_asm_9 : asm "FOO 3" =
    ([0x01, 0x03], []) := by decide

theorem test_asm_10 : asm "add\nconst 3" =
    ([0x01, 0x00, 0x01, 0x03], []) := by decide

theorem test_asm_11 : asm "CONST $UNDEF" =
    ([0x02, 0x00], []) := by decide

theorem test_asm_12 : asm "JUMP 5" =
    ([0x0C, 0x00], []) := by decide

theorem test_asm_13 : asm ":L\nJUMP L\n:L\nJUMP L" =
    ([0x01, 0x00, 0x0C, 0x00, 0x01, 0x00, 0x0C, 0x01], [(0, ⟨0, 0⟩), (1, ⟨0, 2⟩)]) := by decide

theorem test_asm_14 : asm "SLEEP A\nBTN PCL" =
    ([0x14, 0x00, 0x1C, 0x03], []) := by decide

theorem test_asm_15 : asm "$N abc\nCONST $N" =
    ([0x01, 0x00, 0x02, 0x00], []) := by decide

theorem test_asm_16 : asm "CONST 1 2 3" =
    ([0x02, 0x01], []) := by decide

/-! ## Witnesses: states and operands that meet the hypotheses of the statements, at the boundaries of each clause -/

/-- A state of each kind of turn. -/
def turn (s : State) (d : Turn) : State := { s with agenda := [d] }

/-- An image with one token, two initial bytes and a label. -/
def image : Image := ⟨"P", [9, 9, 9], [(0, ⟨0, 0⟩)], [⟨.const, 3⟩]⟩

theorem witness_LoadProgramInstallsImage :
    (turn base (.loadProgram image)).agenda = .loadProgram image :: [] ∧ 0 < image.tokens.length ∧ 0 < 32768 ∧
      2 * image.tokens.length ≤ 2 ∧ (2 : Nat) < 65536 := by decide

theorem witness_HostResetClears : (turn (stack [7]) .reset).agenda = .reset :: [] := rfl

theorem witness_PowerOnState : (turn (stack [7]) .powerCycle).agenda = .powerCycle :: [] := rfl

theorem witness_RunAndPause :
    (turn State.reset .run).agenda = .run :: [] ∧ (turn base .pause).agenda = .pause :: [] := by decide

/-- The engine's turn of a stopped machine, with an empty agenda and at the head of one. -/
theorem witness_RunAndPause_stopped :
    State.reset.TurnTaken State.reset ∧ (turn State.reset .engine).TurnTaken State.reset ∧ State.reset.run = .stopped :=
  ⟨.inl ⟨rfl, rfl⟩, .inr ⟨_, rfl, rfl⟩, rfl⟩

/-- A turn of each driver, the highest index of the buttons and of the pins; and a byte that changes. -/
theorem witness_DriversWriteOnlyTheirRegions :
    (turn base (.button 2 1)).agenda = .button 2 1 :: [] ∧ Turn.ownRegion (.button 2 1) = some .btns ∧
      Turn.ownRegion (.timer 1) = some .timer ∧ Turn.ownRegion (.serialData 1) = some .sstate ∧
      Turn.ownRegion (.pin 15 1) = some .spins ∧
      look (step (turn base (.button 2 1))) (fun t => decide (t.memRead 514 ≠ base.memRead 514)) = some true ∧
      look (step (turn base (.pin 15 1))) (fun t => t.memRead 559) = some 1 := by decide

/-- A driver's turn while the engine is stopped: it is taken and writes nothing. -/
theorem witness_DriversWriteOnlyTheirRegions_stopped :
    (turn State.reset (.button 2 1)).run = .stopped ∧
      look (step (turn State.reset (.button 2 1))) (fun t => (t.memRead 514, t.agenda.length)) = some (0, 0) := by decide

/-- A step of a stopped machine that changes nothing, and one that is a call of the host. -/
theorem witness_RunAndPause_quiet :
    step State.reset = .next State.reset ∧
      look (step (turn State.reset (.loadProgram image))) (fun t => t.run) = some .running := ⟨rfl, by decide⟩

/-- Both cases of the serial device's two protocol turns. -/
theorem witness_DriversWriteOnlyTheirRegions_serial :
    (turn (poke base 529 [1]) .serialTake).memRead 529 = 1 ∧ (turn base .serialTake).memRead 529 ≠ 1 ∧
      (turn base (.serialGive 3)).memRead 529 = 0 ∧ (turn (poke base 529 [1]) (.serialGive 3)).memRead 529 ≠ 0 := by
  decide

/-- Each of the three transitions of the status byte occurs. -/
theorem witness_SerialStatusTransitions :
    (turn (poke base 529 [1]) .serialTake).agenda = .serialTake :: [] ∧ Turn.ownRegion .serialTake = some .sstate ∧
      look (step (turn base (.serialData 3))) (fun t => t.memRead 529) = some 0 ∧
      look (step (turn (poke base 529 [1]) .serialTake)) (fun t => t.memRead 529) = some 0 ∧
      look (step (turn base (.serialGive 3))) (fun t => t.memRead 529) = some 2 := by decide

theorem witness_PairConversionsAreInverses :
    65535 < 65536 ∧ numberToWord 741 = ⟨2, 229⟩ ∧ wordToNumber ⟨12, 128⟩ = 3200 ∧ numberToWord 65535 = ⟨255, 255⟩ := by
  decide

theorem witness_RegisterOrdinals :
    13 ≤ (13 : Byte).toNat ∧ RegRef.ofParam 13 = .absent 13 ∧ RegRef.ofParam 255 = .absent 255 := by decide

theorem witness_NormPolicy :
    (wrapped base).raw .wrap ≠ 0 ∧ (wrapped base).norm (-1) = 254 ∧ (wrapped base).norm 255 = 0 ∧
      base.raw .wrap = 0 ∧ base.norm (-1) = 0 ∧ base.norm 256 = 255 ∧ base.norm 0 = 0 ∧ base.norm 255 = 255 := by decide

theorem witness_GetRegAndSetReg :
    RegRef.ofParam 12 = .slot .wrap ∧ 13 ≤ (13 : Byte).toNat ∧ base.getRef (RegRef.ofParam 13) = 0 := by decide

/-- The last existing byte and the first that does not exist, of Memory and of Storage. -/
theorem witness_GuardedAccess :
    (3199 : Nat) < 3200 ∧ (base.memWrite 3199 5).memRead 3199 = 5 ∧ base.memWrite 3200 5 = base ∧
      (65535 : Nat) < 65536 ∧ (base.stoWrite 65535 5).stoRead 65535 = 5 ∧ base.stoWrite 65536 5 = base := by decide

theorem witness_RegionGuard :
    511 < regionLen .video ∧ regionLen .video ≤ 512 ∧ (base.regionWrite .video 511 5).memRead 1151 = 5 ∧
      base.regionWrite .video 512 5 = base := by decide

/-- The edges of regions that meet plain bytes, other regions and the end of Memory. -/
theorem witness_AddressDecoder :
    decodeAddress 255 = .named .stack ∧ decodeAddress 256 = .plain ∧ decodeAddress 1151 = .named .video ∧
      decodeAddress 1152 = .named .savew ∧ decodeAddress 3199 = .plain ∧ decodeAddress 3200 = .outside := by decide

theorem witness_StackIsLastInFirstOut :
    (List.replicate 256 (1 : Byte)).length ≤ 256 ∧ (List.replicate 256 (1 : Byte)).length = 256 := by
  decide +kernel

theorem witness_SetPopsIntoRegister : Reg.a ≠ .sp := by decide

/-- Each comparison holds for some operands and fails for some. -/
theorem witness_ConditionalJumps :
    (stack [5, 3]).second.toNat = 5 ∧ (stack [5, 3]).top.toNat = 3 ∧ (stack [4, 4]).second.toNat = 4 ∧
      (stack [4, 4]).top.toNat = 4 ∧ (stack [3, 5]).second.toNat = 3 ∧ (stack [3, 5]).top.toNat = 5 := by decide

theorem witness_SleepCounterStallsExactly :
    (base.setRaw .slp 3).run = .running ∧ (base.setRaw .slp 3).agenda = [] ∧ 3 ≤ ((base.setRaw .slp 3).raw .slp).toNat := by
  decide

/-- `mp = 3199`: the last byte with parameter 0, the first beyond with parameter 1. -/
theorem witness_memory_guard :
    ((base.setRaw .mph 12).setRaw .mpl 127).mp + (0 : Byte).toNat < 3200 ∧
      3200 ≤ ((base.setRaw .mph 12).setRaw .mpl 127).mp + (1 : Byte).toNat := by decide

/-- `stp = 65535`: the last byte with parameter 0, the first beyond with parameter 1. -/
theorem witness_storage_guard :
    ((base.setRaw .sth 255).setRaw .stl 255).stp + (0 : Byte).toNat < 65536 ∧
      65536 ≤ ((base.setRaw .sth 255).setRaw .stl 255).stp + (1 : Byte).toNat := by decide

/-- `SSET 2` over the next token's opcode byte (V-MEM 14). -/
def selfWriter : State := code (stack [0]) 0 [0x18, 0x02, 0x02, 0x05]

theorem witness_StoreToStorageSeenByNextFetch :
    selfWriter.run = .running ∧ selfWriter.agenda = [] ∧ selfWriter.raw .slp = 0 ∧ selfWriter.pc < 32767 ∧
      selfWriter.stp + (2 : Byte).toNat = 2 * (selfWriter.pc + 1) := by decide

theorem witness_StoreToStorageSeenByNextFetch_decodes :
    decodeToken (selfWriter.stoRead (2 * selfWriter.pc)) (selfWriter.stoRead (2 * selfWriter.pc + 1)) = .ok (.sset 2) := rfl

/-- Pixel offset 511 and 512. -/
theorem witness_pixel_guard :
    (stack [31, 15]).second.toNat + 32 * (stack [31, 15]).top.toNat < 512 ∧
      512 ≤ (stack [0, 16]).second.toNat + 32 * (stack [0, 16]).top.toNat := by decide

theorem witness_ButtonsReadIntoA :
    ((2 : Byte).toNat < 3 ∧ (poke base 514 [1]).memRead 514 ≠ 0) ∧ ¬ (3 : Byte).toNat < 3 := by decide

theorem witness_SendOffersByte : base.memRead 529 = 0 ∧ (poke base 529 [1]).memRead 529 ≠ 0 := by decide

theorem witness_RecvTakesByte : (poke base 529 [2]).memRead 529 = 2 ∧ (poke base 529 [1]).memRead 529 ≠ 2 := by decide

theorem witness_PinsReadAndDriven : (15 : Byte).toNat < 16 ∧ 16 ≤ (16 : Byte).toNat := by decide

theorem witness_SaveStoresWindow : "Q" ≠ { base with name := "P" }.name := by decide

theorem witness_LoadRestoresWindow :
    DurableStore.get [("P", List.replicate 256 (7 : Byte))] "P" = some (List.replicate 256 7) ∧
      (List.replicate 256 (7 : Byte)).length = 256 ∧
      DurableStore.get [("P", List.replicate 256 (7 : Byte))] "Q" = none := by decide +kernel

/-- `SAVE`, then `LOAD` in the machine the first left. -/
theorem witness_SaveThenLoadRestores :
    ∃ s t u v : State, exec .save s = .next t ∧ u.name = s.name ∧ u.store = t.store ∧ exec .load u = .next v :=
  ⟨base, { base with store := DurableStore.set base.store base.name (base.regionBytes .savew) },
    { base with store := DurableStore.set base.store base.name (base.regionBytes .savew) }, _, rfl, rfl, rfl, rfl⟩

/-! ### The cycle -/

/-- A machine about to run `NOP`, with the engine's turn at the head of the agenda. -/
def nopper : State := { code base 7 [0x01, 0x00] with agenda := [.engine, .reset] }

theorem witness_EngineTurn : nopper.EngineTurn { nopper with agenda := [.reset] } := ⟨rfl, .inr ⟨_, rfl, rfl⟩⟩

theorem witness_EngineTurn_empty : base.EngineTurn base := ⟨rfl, .inl ⟨rfl, rfl⟩⟩

theorem witness_StepRunsDecodedInstruction :
    nopper.raw .slp = 0 ∧
      decodeToken (nopper.stoRead (2 * nopper.pc)) (nopper.stoRead (2 * nopper.pc + 1)) = .ok .nop := ⟨rfl, rfl⟩

theorem witness_StepRunsDecodedInstruction_zero :
    base.raw .slp = 0 ∧ decodeToken (base.stoRead (2 * base.pc)) (base.stoRead (2 * base.pc + 1)) = .ok .zero :=
  ⟨rfl, rfl⟩

theorem witness_ThreeKindsOfCycle :
    (base.setRaw .slp 1).EngineTurn (base.setRaw .slp 1) ∧ (base.setRaw .slp 1).raw .slp ≠ 0 ∧
      base.stoRead (2 * base.pc) = 0 ∧ nopper.stoRead (2 * nopper.pc) ≠ 0 :=
  ⟨⟨rfl, .inl ⟨rfl, rfl⟩⟩, by decide, by decide, by decide⟩

/-- The first and the last unassigned byte. -/
theorem witness_UnassignedOpcodeIsNop :
    (code base 0 [0x29, 0]).EngineTurn (code base 0 [0x29, 0]) ∧ (code base 0 [0x29, 0]).raw .slp = 0 ∧
      0x29 ≤ ((code base 0 [0x29, 0]).stoRead (2 * (code base 0 [0x29, 0]).pc)).toNat ∧
      0x29 ≤ ((code base 0 [0xFF, 0]).stoRead (2 * (code base 0 [0xFF, 0]).pc)).toNat :=
  ⟨⟨rfl, .inl ⟨rfl, rfl⟩⟩, rfl, by decide, by decide⟩

/-- The first token index beyond Storage. -/
theorem witness_FetchBeyondStorageResets :
    (base.setPc 32768).EngineTurn (base.setPc 32768) ∧ (base.setPc 32768).raw .slp = 0 ∧ 32768 ≤ (base.setPc 32768).pc :=
  ⟨⟨rfl, .inl ⟨rfl, rfl⟩⟩, rfl, by decide⟩

/-! ### Whole-machine rules -/

theorem witness_StepKeepsInvariant : base.Inv ∧ ∃ t, step base = .next t :=
  ⟨⟨⟨.nil, by simp [base, State.reset]⟩, by simp [base, State.reset], ⟨.nil, by simp [base, State.reset]⟩,
    by simp [base, State.reset], rfl, ⟨.nil, by simp [base, State.reset]⟩, by simp [base, State.reset]⟩, _, rfl⟩

/-- An instruction that changes a slot. -/
theorem witness_OnlyListedSlotsChange :
    ∃ t, exec (.const 5) base = .next t ∧ t.raw .sp ≠ base.raw .sp := ⟨_, rfl, by decide⟩

theorem witness_WrapFlagRules :
    (∃ t, Instr.const 5 ≠ .set (.slot .wrap) ∧ exec (.const 5) base = .next t) ∧
      (wrapped base).raw .wrap ≠ 0 ∧ base.raw .wrap = 0 := ⟨⟨_, by decide, rfl⟩, by decide⟩

/-- An instruction that changes a byte of Memory, and one that is neither `SSET` nor `SAVE`. -/
theorem witness_OnlyListedSpacesChange :
    ∃ t, exec (.const 5) base = .next t ∧ t.memRead 0 ≠ base.memRead 0 ∧ (∀ n, Instr.const 5 ≠ .sset n) ∧
      Instr.const 5 ≠ .save := ⟨_, rfl, by decide, fun _ => by simp, by decide⟩

/-- A step that changes `RUN`, the labels and the name, and one that changes the durable store. -/
theorem witness_PlatformStateChangesOnlyAsNamed :
    look (step (turn State.reset (.loadProgram image)))
        (fun t => (t.name, t.labels, t.run)) = some ("P", [(0, ⟨0, 0⟩)], .running) ∧
      run1 base 0x23 0 (fun t => t.store.length) = some 1 := by decide +kernel

/-! ### Encoding -/

theorem witness_EncodeDecodeRoundTrip :
    Instr.wf (.get (.absent 13)) = true ∧ ignoresParam (.get (.absent 13)) = false ∧ ignoresParam .add = true := by decide

theorem witness_EncodeDecodeRoundTrip_decodes : decode (0x05 :: 0x77 :: [1]) = .ok (.add, [1]) := rfl

theorem witness_DecodeIsTotal :
    (1 : Byte) ≠ 0 ∧ (1 : Byte).toNat ≤ 0x28 ∧ (0x28 : Byte).toNat ≤ 0x28 ∧ 0x29 ≤ (0x29 : Byte).toNat ∧
      0x29 ≤ (0xFF : Byte).toNat := by decide

/-! ### The assembler -/

theorem witness_AssemblerLabelLine : (5 : Byte) ≠ BitVec.ofNat 8 (⟨[], [], 0, 0⟩ : Emission).count := by decide

end Sys2Proof.Tests
end

section
/-! The pair conversions of 00_scope.md R9 in the direction `Laws/Ops.lean` leaves open, and the obligation about them. -/

namespace Sys2Proof.Machine

/-- The high byte of a pair is its number divided by 256, because the low byte is below 256 (00_scope.md R9). -/
theorem wordToNumber_div (w : Address) : wordToNumber w / 256 = w.high.toNat := by
  have low := w.low.isLt
  simp only [wordToNumber]
  omega

/-- The low byte of a pair is its number modulo 256 (00_scope.md R9). -/
theorem wordToNumber_mod (w : Address) : wordToNumber w % 256 = w.low.toNat := by
  have low := w.low.isLt
  simp only [wordToNumber]
  omega

/-- `numberToWord` undoes `wordToNumber` (00_scope.md R9). -/
@[simp] theorem numberToWord_wordToNumber (w : Address) : numberToWord (wordToNumber w) = w := by
  have high : BitVec.ofNat 8 (wordToNumber w / 256) = w.high := by
    rw [wordToNumber_div, BitVec.ofNat_toNat, BitVec.setWidth_eq]
  have low : BitVec.ofNat 8 (wordToNumber w) = w.low :=
    BitVec.eq_of_toNat_eq ((BitVec.toNat_ofNat _ _).trans (wordToNumber_mod w))
  rw [numberToWord, high, low]

/-- Settles O7: each half of the inverse is a law of the pair conversions; the formula is `wordToNumber` by definition. -/
theorem pairConversionsAreInverses : Obligations.PairConversionsAreInverses :=
  ⟨wordToNumber_numberToWord, numberToWord_wordToNumber, fun _ => rfl⟩

end Sys2Proof.Machine
end

section
/-! The register operand, `Norm` and the guarded register access of 10_state.md sections 1 to 3, and the obligations about
them. -/

namespace Sys2Proof

/-- A parameter from 13 on names no slot (10_state.md R21). -/
theorem RegRef.ofParam_absent (n : Byte) (h : 13 ≤ n.toNat) : RegRef.ofParam n = .absent n := by
  simp [RegRef.ofParam, Reg.ofOrdinal_none n h]

end Sys2Proof

namespace Sys2Proof.Machine

/-- Everything `SetReg` does to a register operand (10_state.md R29). -/
theorem Frame.setRef (s : State) (r : RegRef) (v : Int) : Frame s (s.setRef r v) (slotsWritten (.set r)) [] [] := by
  cases r with
  | slot r => exact (Frame.setReg s r v).mono (by simp [slotsWritten]) (by simp) (by simp)
  | absent n => exact Frame.refl s _ _ _

/-- Settles O8: the table row by row, and the law of the ordinals that name no slot. -/
theorem registerOrdinals : Obligations.RegisterOrdinals :=
  ⟨⟨rfl, rfl, rfl, rfl, rfl, rfl, rfl, rfl, rfl, rfl, rfl, rfl, rfl⟩, RegRef.ofParam_absent⟩

/-- Settles O9: the four clauses are the two of `State.norm_spec`, the clamp read in its three intervals. -/
theorem normPolicy : Obligations.NormPolicy := by
  intro s v
  obtain ⟨clamp, wrap⟩ := s.norm_spec v
  refine ⟨wrap, fun hw hv => ?_, fun hw hv => ?_, fun hw h0 h255 => ?_⟩
  · have := clamp hw
    exact BitVec.eq_of_toNat_eq (show (s.norm v).toNat = 0 by omega)
  · have := clamp hw
    exact BitVec.eq_of_toNat_eq (show (s.norm v).toNat = 255 by omega)
  · have := clamp hw
    omega

/-- Settles O10: a slot is read and written through `State.norm`, whose law is `State.norm_spec`; the other ordinals are
`absent`. -/
theorem getRegAndSetReg : Obligations.GetRegAndSetReg := by
  intro s p v
  refine ⟨fun r _ => ⟨s.norm_spec _, ?_, Frame.setReg s r v⟩, fun hp => ?_⟩
  · rw [State.setRef, State.raw_setReg_same]
    exact s.norm_spec v
  · rw [RegRef.ofParam_absent p hp]
    exact ⟨rfl, rfl⟩

end Sys2Proof.Machine
end

section
/-! The stack of 10_state.md section 4: what a run of pushes leaves, what a run of pops reads, and that the two meet. -/

namespace Sys2Proof.Machine

/-- Settles O14: the laws of the two operations. -/
theorem pushAndPop : Obligations.PushAndPop := by
  intro s v
  obtain ⟨sp, slot, frame⟩ := s.push_spec v
  exact ⟨⟨slot, sp, frame⟩, s.pop_spec⟩

/-- A run of pushes taken apart at its last one. -/
theorem State.pushAll_concat (s : State) (vs : List Byte) (v : Byte) :
    s.pushAll (vs ++ [v]) = (s.pushAll vs).push v := by
  simp [State.pushAll]

/-- Pushes raise `SP` by their number, modulo 256 (10_state.md R31). -/
theorem State.sp_pushAll (s : State) (vs : List Byte) :
    (s.pushAll vs).raw .sp = s.raw .sp + BitVec.ofNat 8 vs.length := by
  induction vs using List.reverseRecOn with
  | nil => simp [State.pushAll]
  | append_singleton vs v ih =>
    rw [State.pushAll_concat, ((s.pushAll vs).push_spec v).1, ih, List.length_append, BitVec.ofNat_add]
    exact BitVec.add_assoc _ _ _

/-- Of at most 256 pushed values value `k` lies `k` slots above the old `SP`: no later push reaches its slot
(10_state.md R34). -/
theorem State.memRead_pushAll (s : State) (vs : List Byte) (hlen : vs.length ≤ 256) (k : Nat) (hk : k < vs.length) :
    (s.pushAll vs).memRead (s.raw .sp + BitVec.ofNat 8 k).toNat = vs[k] := by
  induction vs using List.reverseRecOn with
  | nil => simp at hk
  | append_singleton vs v ih =>
    simp only [List.length_append, List.length_singleton] at hlen hk
    obtain ⟨-, slot, frame⟩ := (s.pushAll vs).push_spec v
    rw [State.freeAddr, s.sp_pushAll] at slot frame
    rw [State.pushAll_concat]
    rcases Nat.lt_or_eq_of_le (Nat.le_of_lt_succ hk) with h | rfl
    · have apart : (s.raw .sp + BitVec.ofNat 8 k).toNat ≠ (s.raw .sp + BitVec.ofNat 8 vs.length).toNat := by
        simp only [BitVec.toNat_add, BitVec.toNat_ofNat]
        omega
      rw [frame.mem _ (by simpa using apart), ih (by omega) h, List.getElem_append_left h]
    · rw [slot, List.getElem_concat_length rfl]

/-- One slot down and `n` more are `n + 1` slots down. -/
theorem slot_sub_one_sub (x : Byte) (n : Nat) : x - 1 - BitVec.ofNat 8 n = x - BitVec.ofNat 8 (n + 1) := by
  rw [BitVec.sub_sub, Nat.add_comm n 1, BitVec.ofNat_add]
  rfl

/-- Pops lower `SP` by their number, modulo 256 (10_state.md R32). -/
theorem State.sp_popMany (n : Nat) (s : State) :
    (State.popMany n s).2.raw .sp = s.raw .sp - BitVec.ofNat 8 n := by
  induction n generalizing s with
  | zero => simp [State.popMany]
  | succ n ih =>
    show (State.popMany n s.pop.2).2.raw .sp = _
    obtain ⟨-, sp, -⟩ := s.pop_spec
    rw [ih, sp, slot_sub_one_sub]

/-- Pops write nothing in Memory, so popped value `k` is the byte `k + 1` slots below the old `SP` (10_state.md R32). -/
theorem State.popMany_eq (n : Nat) (s : State) :
    (State.popMany n s).1 = (List.range n).map fun k => s.memRead (s.raw .sp - BitVec.ofNat 8 (k + 1)).toNat := by
  induction n generalizing s with
  | zero => rfl
  | succ n ih =>
    obtain ⟨top, sp, frame⟩ := s.pop_spec
    show s.pop.1 :: (State.popMany n s.pop.2).1 = _
    rw [ih, top, sp, List.range_succ_eq_map, List.map_cons, List.map_map]
    refine congrArg₂ _ rfl (List.map_congr_left fun k _ => ?_)
    rw [frame.mem _ (by simp), slot_sub_one_sub]
    rfl

/-- Settles O15: pop `k` reads the slot of push `length - 1 - k`; 256 pushes bring `SP` back, so the next one takes the
slot of the first. -/
theorem stackIsLastInFirstOut : Obligations.StackIsLastInFirstOut := by
  refine ⟨fun s vs hlen => ⟨?_, ?_⟩, fun s vs v hlen => ?_⟩
  · rw [State.popMany_eq]
    refine List.ext_getElem (by simp) fun k hk _ => ?_
    have hk : k < vs.length := by simpa using hk
    have slot : s.raw .sp + BitVec.ofNat 8 vs.length - BitVec.ofNat 8 (k + 1) =
        s.raw .sp + BitVec.ofNat 8 (vs.length - 1 - k) := by
      apply BitVec.eq_of_toNat_eq
      simp only [BitVec.toNat_sub, BitVec.toNat_add, BitVec.toNat_ofNat]
      omega
    rw [List.getElem_map, List.getElem_range, List.getElem_reverse, s.sp_pushAll, slot]
    exact s.memRead_pushAll vs hlen _ (by omega)
  · rw [State.sp_popMany, s.sp_pushAll, BitVec.add_sub_cancel]
  · have back : (s.pushAll vs).raw .sp = s.raw .sp := by
      rw [s.sp_pushAll, hlen]
      exact BitVec.add_zero _
    obtain ⟨sp, slot, -⟩ := (s.pushAll vs).push_spec v
    rw [State.freeAddr, back] at slot
    rw [back] at sp
    rw [State.pushAll_concat]
    exact ⟨slot, sp⟩

end Sys2Proof.Machine
end

section
/-! What an instruction can change, said once for all of them: the frame of `exec` with the slots of 10_state.md R40 and
the spaces of 20_memory.md R74; and the obligations of 10_state.md section 5 that follow from it. -/

namespace Sys2Proof.Machine

/-- The addresses of Memory in the ranges that the table of 20_memory.md R74 gives an instruction. -/
def bytesWritten (s : State) (i : Instr) : List Nat :=
  (rangesWritten s i).flatMap fun p => List.range' p.1 p.2

theorem mem_bytesWritten (s : State) (i : Instr) (a : Nat) :
    a ∈ bytesWritten s i ↔ ∃ p ∈ rangesWritten s i, p.1 ≤ a ∧ a < p.1 + p.2 := by
  simp [bytesWritten, List.mem_range'_1]

/-- The addresses of Storage that the table of 20_memory.md R74 gives an instruction. -/
def storageWritten (s : State) : Instr → List Nat
  | .sset n => [s.stp + n.toNat]
  | _ => []

/-! ## Frames of the operations that `exec` composes -/

/-- Frames compose, each with its own lists. -/
theorem Frame.comp {s t u : State} {rs rs' : List Reg} {ms ms' ss ss' : List Nat} (h1 : Frame s t rs ms ss)
    (h2 : Frame t u rs' ms' ss') : Frame s u (rs ++ rs') (ms ++ ms') (ss ++ ss') :=
  (h1.mono (by simp) (by simp) (by simp)).trans (h2.mono (by simp) (by simp) (by simp))

/-- A frame whose bytes are a region that the table gives an instruction. -/
theorem Frame.ofRegion {s t : State} {i : Instr} {g : Region} {rs : List Reg} {ss : List Nat}
    (h : Frame s t rs (List.range' (regionAddr g) (regionLen g)) ss) (hg : (regionAddr g, regionLen g) ∈ rangesWritten s i) :
    Frame s t rs (bytesWritten s i) ss :=
  h.mono (List.Subset.refl _)
    (fun _ ha => (mem_bytesWritten s i _).2 ⟨_, hg, List.mem_range'_1.1 ha⟩) (List.Subset.refl _)

/-- A region-relative write keeps to its region, whatever the offset (20_memory.md R69). -/
theorem Frame.regionWrite_region (s : State) (g : Region) (o : Nat) (v : Byte) :
    Frame s (s.regionWrite g o v) [] (List.range' (regionAddr g) (regionLen g)) [] := by
  by_cases ho : o < regionLen g
  · exact (Frame.regionWrite s g o v).mono (by simp) (by simp [List.mem_range'_1, ho]) (by simp)
  · rw [State.regionWrite_eq, if_neg ho]
    exact Frame.refl s _ _ _

theorem Frame.push (s : State) (v : Byte) : Frame s (s.push v) [.sp] [s.freeAddr] [] := (s.push_spec v).2.2

theorem Frame.pop (s : State) : Frame s s.pop.2 [.sp] [] [] := s.pop_spec.2.2

theorem Frame.popTwo (s : State) : Frame s s.popTwo.2.2 [.sp] [] [] := s.popTwo_spec.2.2.2

theorem Frame.binary (s : State) (f : Byte → Byte → Int) : Frame s (s.binary f) [.sp] [s.secondAddr] [] :=
  (s.binary_spec f).2.2

theorem Frame.takeJump (s : State) (l : Byte) : Frame s (s.takeJump l) [.pch, .pcl, .rph, .rpl] [] [] :=
  (s.takeJump_spec l).2.2

/-- A conditional jump writes `SP`, and the two pairs when it is taken (43_control_transfer.md R192). -/
theorem Frame.jumpIf (s : State) (c : Byte → Byte → Bool) (l : Byte) :
    Frame s (s.jumpIf c l) [.sp, .pch, .pcl, .rph, .rpl] [] [] := by
  rw [State.jumpIf_eq]
  split
  · exact (Frame.popTwo s).comp (Frame.takeJump _ l)
  · exact (Frame.popTwo s).mono (by simp) (by simp) (by simp)

/-! ## The two instructions whose outcome depends on the serial line -/

/-- `SEND` (45_peripheral_instructions.md R231). -/
theorem exec_send (s : State) :
    exec .send s = .next (if s.pop.2.sstat = 0 then
      ((s.pop.2.regionWrite .sstate 0 s.pop.1).regionWrite .sstate 1 1).setReg .a 255 else s.pop.2.setReg .a 0) :=
  (apply_ite Host.Outcome.next _ _ _).symm

/-- `RECV` (45_peripheral_instructions.md R232). -/
theorem exec_recv (s : State) :
    exec .recv s = .next (if s.sstat = 2 then
      ((s.setReg .a (s.sdat.toNat : Int)).setReg .b 255).regionWrite .sstate 1 0 else s.setReg .b 0) :=
  (apply_ite Host.Outcome.next _ _ _).symm

/-! ## The frame of `exec` -/

/-- Everything an instruction but `SAVE` can change (10_state.md R40, 20_memory.md R74). -/
theorem exec_frame (i : Instr) (s : State) (hi : i ≠ .save) :
    ∃ t, exec i s = .next t ∧ Frame s t (slotsWritten i) (bytesWritten s i) (storageWritten s i) := by
  cases i with
  | save => exact absurd rfl hi
  | nop | tile | sprite | icon | print => exact ⟨_, rfl, Frame.refl s _ _ _⟩
  | zero | rtn => exact ⟨_, rfl, Frame.setPair s _ _ _⟩
  | const | get | mget | sget => exact ⟨_, rfl, Frame.push s _⟩
  | set r =>
    exact ⟨_, rfl, ((Frame.pop s).comp (Frame.setRef _ r _)).mono (by cases r <;> simp [slotsWritten]) (by simp) (by simp)⟩
  | add | sub | mul | div | and | or | xor => exact ⟨_, rfl, Frame.binary s _⟩
  | jump l => exact ⟨_, rfl, Frame.takeJump s l⟩
  | jeq l | jneq l | jgt l | jgte l | jlt l | jlte l => exact ⟨_, rfl, Frame.jumpIf s _ l⟩
  | sleep | btn | btnd | pin => exact ⟨_, rfl, Frame.setReg s _ _⟩
  | mset n => exact ⟨_, rfl, (Frame.pop s).comp (Frame.memWrite _ (s.mp + n.toNat) _)⟩
  | sset n => exact ⟨_, rfl, (Frame.pop s).comp (Frame.stoWrite _ (s.stp + n.toNat) _)⟩
  | clear | load => exact ⟨_, rfl, (Frame.regionFill s _ _).ofRegion (.head _)⟩
  | draw => exact ⟨_, rfl, ((Frame.popTwo s).comp (Frame.regionWrite_region _ .video _ _)).ofRegion (.head _)⟩
  | shade => exact ⟨_, rfl, (Frame.popTwo s).comp (Frame.setReg _ _ _)⟩
  | tone => exact ⟨_, rfl, ((Frame.popTwo s).comp (Frame.regionWrite _ _ _ _)).comp (Frame.regionWrite _ _ _ _)⟩
  | pout => exact ⟨_, rfl, ((Frame.pop s).comp (Frame.regionWrite_region _ .spins _ _)).ofRegion (.head _)⟩
  | send =>
    refine ⟨_, exec_send s, ?_⟩
    split
    · exact (((Frame.pop s).comp (Frame.regionWrite _ .sstate 0 _)).comp (Frame.regionWrite _ .sstate 1 _)).comp
        (Frame.setReg _ _ _)
    · exact ((Frame.pop s).comp (Frame.setReg _ _ _)).mono (by simp [slotsWritten]) (by simp) (by simp)
  | recv =>
    refine ⟨_, exec_recv s, ?_⟩
    split
    · exact ((Frame.setReg s _ _).comp (Frame.setReg _ _ _)).comp (Frame.regionWrite_region _ _ _ _)
    · exact (Frame.setReg s _ _).mono (by simp [slotsWritten]) (by simp) (by simp)

/-- A slot the table does not give an instruction keeps its byte (10_state.md R40). -/
theorem exec_raw_eq {i : Instr} {s t : State} (h : exec i s = .next t) {r : Reg} (hr : r ∉ slotsWritten i) :
    t.raw r = s.raw r := by
  by_cases hi : i = .save
  · subst hi
    cases h
    rfl
  · obtain ⟨t', h', frame⟩ := exec_frame i s hi
    cases h'.symm.trans h
    exact frame.regs r hr

/-- Settles O52: the contrapositive of `exec_raw_eq`. -/
theorem onlyListedSlotsChange : Obligations.OnlyListedSlotsChange := by
  intro i s t r h hne
  by_contra hr
  exact hne (exec_raw_eq h hr)

/-- The table gives the flag to `SET WRAP` alone (10_state.md R26, R40). -/
theorem wrap_notMem_slotsWritten {i : Instr} (hi : i ≠ .set (.slot .wrap)) : Reg.wrap ∉ slotsWritten i := by
  cases i with
  | set r =>
    cases r with
    | slot r =>
      have hr : Reg.wrap ≠ r := by
        rintro rfl
        exact hi rfl
      simp [slotsWritten, hr]
    | absent n => simp [slotsWritten]
  | _ => simp [slotsWritten]

/-- Settles O53: the flag is no slot of another instruction, and `Norm` is `State.norm_spec`. -/
theorem wrapFlagRules : Obligations.WrapFlagRules :=
  ⟨rfl, fun _ _ _ hi h => exec_raw_eq h (wrap_notMem_slotsWritten hi), State.norm_spec⟩

end Sys2Proof.Machine
end

section
/-! The fetch beyond Storage (10_state.md R25) as an origin reset. -/

namespace Sys2Proof.Machine

/-- Everything an origin reset does (40_cycle_and_dispatch.md R143). -/
theorem State.originReset_spec (s : State) : s.originReset.pc = 0 ∧ Frame s s.originReset [.pch, .pcl] [] [] :=
  ⟨s.pc_setPc 0 (by decide), Frame.setPair s _ _ _⟩

/-- A cycle that fetches opcode byte 0 is an origin reset (40_cycle_and_dispatch.md R143). -/
theorem step_originReset {s s' : State} (h : s.EngineTurn s') (hs : s.raw .slp = 0) (ho : s.stoRead (2 * s.pc) = 0) :
    step s = .next s'.originReset := by
  rw [step_runToken h hs, ho]
  exact s'.runToken_zero

theorem State.cycleKind_originReset {s : State} (hs : s.raw .slp = 0) (ho : s.stoRead (2 * s.pc) = 0) :
    s.cycleKind = .originReset := by
  simp [State.cycleKind, State.fetchOpcode, hs, ho]

/-- Settles O48: from token index 32768 on the opcode byte is read beyond Storage, where every byte is 0. -/
theorem fetchBeyondStorageResets : Obligations.FetchBeyondStorageResets := by
  intro s s' h hs hpc
  have ho : s.stoRead (2 * s.pc) = 0 := by rw [State.stoRead_eq, if_neg (by omega)]
  exact ⟨State.cycleKind_originReset hs ho, _, step_originReset h hs ho, s'.originReset_spec⟩

end Sys2Proof.Machine
end

section
/-! The platform state over a step (10_state.md section 8): labels, name, `RUN` and the durable store. -/

namespace Sys2Proof.Machine

/-- Everything a driver's turn can change: bytes of its own region (20_memory.md R78). -/
theorem Frame.drive (s : State) {d : Turn} {g : Region} (hd : d.ownRegion = some g) :
    Frame s (s.drive d) [] (List.range' (regionAddr g) (regionLen g)) [] := by
  cases hr : s.run with
  | stopped => rw [State.drive_stopped hr]; exact Frame.refl s _ _ _
  | running =>
    rw [State.drive_running hr]
    cases d with
    | button | timer | serialData | pin => cases hd; exact Frame.regionWrite_region s _ _ _
    | serialTake =>
      cases hd
      show Frame s (if s.sstat = 1 then _ else s) _ _ _
      split
      · exact Frame.regionWrite_region s _ _ _
      · exact Frame.refl s _ _ _
    | serialGive v =>
      cases hd
      show Frame s (if s.sstat = 0 then _ else s) _ _ _
      split
      · exact (Frame.regionWrite_region s _ _ _).trans (Frame.regionWrite_region _ _ _ _)
      · exact Frame.refl s _ _ _
    | engine | loadProgram | run | pause | reset | powerCycle => cases hd

/-- The engine's turn is taken off the agenda and nothing else is touched (log entry 25). -/
theorem State.TurnTaken.platform {s s' : State} (h : s.TurnTaken s') :
    s'.labels = s.labels ∧ s'.name = s.name ∧ s'.run = s.run ∧ s'.store = s.store := by
  obtain ⟨-, rfl⟩ | ⟨rest, -, rfl⟩ := h <;> exact ⟨rfl, rfl, rfl, rfl⟩

/-- Of the platform state an instruction changes nothing but, with `SAVE`, the durable store (10_state.md R43 to R45,
20_memory.md R86). -/
theorem exec_platform (i : Instr) (s : State) :
    ∃ t, exec i s = .next t ∧ t.labels = s.labels ∧ t.name = s.name ∧ t.run = s.run ∧ (t.store = s.store ∨ i = .save) := by
  by_cases hi : i = .save
  · subst hi
    exact ⟨_, rfl, rfl, rfl, rfl, .inr rfl⟩
  · obtain ⟨t, h, frame⟩ := exec_frame i s hi
    exact ⟨t, h, frame.labels, frame.name, frame.run, .inl frame.store⟩

/-- The same of what the decoder read, run with the advance that belongs to it (40_cycle_and_dispatch.md R140). -/
theorem State.runToken_platform (s : State) (x : Except Reject Instr) :
    ∃ t, s.runToken x = .next t ∧ t.labels = s.labels ∧ t.name = s.name ∧ t.run = s.run ∧
      (t.store = s.store ∨ x = .ok .save) := by
  cases x with
  | error e => exact ⟨_, s.runToken_error e, rfl, rfl, rfl, .inl rfl⟩
  | ok i =>
    by_cases hi : i = .zero
    · subst hi
      exact ⟨_, s.runToken_zero, rfl, rfl, rfl, .inl rfl⟩
    · obtain ⟨t, h, hl, hn, hr, hst⟩ := exec_platform i s.advance
      exact ⟨t, (s.runToken_ok hi).trans h, hl, hn, hr, hst.imp_right (congrArg _)⟩

/-- Settles O55: the four kinds of step, the turn from outside by who takes it. -/
theorem platformStateChangesOnlyAsNamed : Obligations.PlatformStateChangesOnlyAsNamed := by
  intro s t ht
  obtain ⟨d, rest, ha, -, hstep⟩ | ⟨s', hturn, -, hstep⟩ | ⟨s', hturn, -, hstep⟩ | ⟨s', hturn, hs, hstep⟩ := step_cases s
  · cases hstep.symm.trans ht
    cases hd : d.ownRegion with
    | some g =>
      rw [outsideTurn_driver _ hd]
      have frame := Frame.drive { s with agenda := rest } hd
      exact ⟨.inl ⟨frame.labels, frame.name⟩, .inl frame.run, .inl frame.store⟩
    | none =>
      cases d with
      | engine | reset => exact ⟨.inl ⟨rfl, rfl⟩, .inl rfl, .inl rfl⟩
      | loadProgram im =>
        exact ⟨.inr ⟨rest, .inr ⟨im, ha⟩⟩, .inr ⟨rest, .inr (.inr (.inr ⟨im, ha⟩))⟩, .inl rfl⟩
      | run => exact ⟨.inl ⟨rfl, rfl⟩, .inr ⟨rest, .inl ha⟩, .inl rfl⟩
      | pause => exact ⟨.inl ⟨rfl, rfl⟩, .inr ⟨rest, .inr (.inl ha)⟩, .inl rfl⟩
      | powerCycle => exact ⟨.inr ⟨rest, .inl ha⟩, .inr ⟨rest, .inr (.inr (.inl ha))⟩, .inl rfl⟩
      | button | timer | serialTake | serialGive | serialData | pin => cases hd
  · cases hstep.symm.trans ht
    obtain ⟨hl, hn, hr, hst⟩ := hturn.platform
    exact ⟨.inl ⟨hl, hn⟩, .inl hr, .inl hst⟩
  · cases hstep.symm.trans ht
    obtain ⟨hl, hn, hr, hst⟩ := hturn.2.platform
    exact ⟨.inl ⟨hl, hn⟩, .inl hr, .inl hst⟩
  · obtain ⟨t', htok, hl', hn', hr', hst'⟩ :=
      s'.runToken_platform (decodeToken (s.stoRead (2 * s.pc)) (s.stoRead (2 * s.pc + 1)))
    cases (hstep.trans htok).symm.trans ht
    obtain ⟨hl, hn, hr, hst⟩ := hturn.2.platform
    exact ⟨.inl ⟨hl'.trans hl, hn'.trans hn⟩, .inl (hr'.trans hr),
      hst'.imp (·.trans hst) fun hsave => ⟨⟨s', hturn⟩, hs, hsave⟩⟩

end Sys2Proof.Machine
end

section
/-! The invariant of the machine (10_state.md R41 to R43, R47): it holds after power-on, and every instruction, every turn
from outside and so every step keeps it. -/

namespace Sys2Proof.Machine

/-- Settles O51: everything is empty. -/
theorem invariantAtReset : Obligations.InvariantAtReset where
  memCanonical := Memory.wf_nil
  memBounded := List.forall_mem_nil _
  stoCanonical := Memory.wf_nil
  stoBounded := List.forall_mem_nil _
  labelsMap := rfl
  storeMap := ⟨.nil, List.forall_mem_nil _⟩
  agendaWf := List.forall_mem_nil _

theorem State.Inv.pop {s : State} (h : s.Inv) : s.pop.2.Inv := h.setRaw .sp _

theorem State.Inv.withRun {s : State} (h : s.Inv) (x : RunState) : ({ s with run := x } : State).Inv :=
  { h with }

theorem State.Inv.withAgenda {s : State} (h : s.Inv) {ts : List Turn} (ht : ∀ t ∈ ts, Turn.wf t = true) :
    ({ s with agenda := ts } : State).Inv :=
  { h with agendaWf := ht }

theorem State.Inv.withStore {s : State} (h : s.Inv) {st : DurableStore} (hst : DurableStore.wf st) :
    ({ s with store := st } : State).Inv :=
  { h with storeMap := hst }

/-- A window saved is the 256 bytes of its region, under one name (10_state.md R47). -/
theorem State.Inv.save {s : State} (h : s.Inv) :
    ({ s with store := DurableStore.set s.store s.name (s.regionBytes .savew) } : State).Inv :=
  h.withStore (DurableStore.wf_set _ _ _ h.storeMap (s.length_regionBytes .savew))

/-- Every instruction keeps the invariant: it is made of operations that do. -/
theorem State.Inv.exec {s : State} (h : s.Inv) (i : Instr) : ∃ t, exec i s = .next t ∧ t.Inv := by
  cases i with
  | nop | tile | sprite | icon | print => exact ⟨_, rfl, h⟩
  | zero | rtn => exact ⟨_, rfl, h.setPair _ _ _⟩
  | const | get | mget | sget => exact ⟨_, rfl, h.push _⟩
  | set r => exact ⟨_, rfl, h.pop.setRef r _⟩
  | add | sub | mul | div | and | or | xor => exact ⟨_, rfl, h.binary _⟩
  | jump l => exact ⟨_, rfl, h.takeJump l⟩
  | jeq l | jneq l | jgt l | jgte l | jlt l | jlte l => exact ⟨_, rfl, h.jumpIf _ l⟩
  | sleep | btn | btnd | pin => exact ⟨_, rfl, h.setReg _ _⟩
  | mset => exact ⟨_, rfl, h.pop.memWrite _ _⟩
  | sset => exact ⟨_, rfl, h.pop.stoWrite _ _⟩
  | clear | load => exact ⟨_, rfl, h.regionFill _ _⟩
  | draw => exact ⟨_, rfl, h.popTwo.regionWrite _ _ _⟩
  | shade => exact ⟨_, rfl, h.popTwo.setReg _ _⟩
  | tone => exact ⟨_, rfl, (h.popTwo.regionWrite _ _ _).regionWrite _ _ _⟩
  | pout => exact ⟨_, rfl, h.pop.regionWrite _ _ _⟩
  | save => exact ⟨_, rfl, h.save⟩
  | send =>
    refine ⟨_, exec_send s, ?_⟩
    split
    · exact ((h.pop.regionWrite _ _ _).regionWrite _ _ _).setReg _ _
    · exact h.pop.setReg _ _
  | recv =>
    refine ⟨_, exec_recv s, ?_⟩
    split
    · exact ((h.setReg _ _).setReg _ _).regionWrite _ _ _
    · exact h.setReg _ _

/-- What the decoder read keeps the invariant. -/
theorem State.Inv.runToken {s : State} (h : s.Inv) (x : Except Reject Instr) : ∃ t, s.runToken x = .next t ∧ t.Inv := by
  have advanced : s.advance.Inv := h.setPair _ _ _
  cases x with
  | error e => exact ⟨_, s.runToken_error e, advanced⟩
  | ok i =>
    by_cases hi : i = .zero
    · subst hi
      exact ⟨_, s.runToken_zero, h.setPair _ _ _⟩
    · rw [s.runToken_ok hi]
      exact advanced.exec i

/-- A load of a well-formed image keeps the invariant (70_reset_and_hazards.md R282). -/
theorem State.Inv.loadProgram {s : State} (h : s.Inv) {im : Image} (him : im.wf = true) : (s.loadProgram im).Inv := by
  have cleared := h.cleared.withSto Memory.wf_nil (List.forall_mem_nil _)
  have stored := (cleared.stoWriteBlock 0 (by decide) im.storage).stoWriteBlock 0 (by decide) (serialize im.tokens)
  exact { stored with labelsMap := him }

/-- A power cycle keeps the invariant: the machine is that of power-on, the durable store and the agenda are kept
(60_exceptions.md R272). -/
theorem State.Inv.powerCycle {s : State} (h : s.Inv) : s.powerCycleCall.Inv :=
  { invariantAtReset with storeMap := h.storeMap, agendaWf := h.agendaWf }

/-- Every turn from outside keeps the invariant. -/
theorem State.Inv.outsideTurn {s : State} (h : s.Inv) {d : Turn} (hd : d.wf = true) : (s.outsideTurn d).Inv := by
  cases d with
  | engine => exact h
  | loadProgram im => exact h.loadProgram hd
  | run | pause => exact h.withRun _
  | reset => exact h.cleared
  | powerCycle => exact h.powerCycle
  | button | timer | serialTake | serialGive | serialData | pin => exact h.drive _

/-- The invariant covers the rest of the agenda (log entry 2). -/
theorem State.Inv.agendaTail {s : State} (h : s.Inv) {d : Turn} {rest : List Turn} (ha : s.agenda = d :: rest) :
    ({ s with agenda := rest } : State).Inv :=
  h.withAgenda fun t ht => h.agendaWf t (ha ▸ List.mem_cons_of_mem d ht)

theorem State.Inv.turnTaken {s s' : State} (h : s.Inv) (hturn : s.TurnTaken s') : s'.Inv := by
  obtain ⟨-, rfl⟩ | ⟨rest, ha, rfl⟩ := hturn
  · exact h
  · exact h.agendaTail ha

/-- Settles O50: the four kinds of step, each made of operations that keep the invariant. -/
theorem stepKeepsInvariant : Obligations.StepKeepsInvariant := by
  intro s t h ht
  obtain ⟨d, rest, ha, -, hstep⟩ | ⟨s', hturn, -, hstep⟩ | ⟨s', hturn, -, hstep⟩ | ⟨s', hturn, -, hstep⟩ := step_cases s
  · cases hstep.symm.trans ht
    exact (h.agendaTail ha).outsideTurn (h.agendaWf d (by simp [ha]))
  · cases hstep.symm.trans ht
    exact h.turnTaken hturn
  · cases hstep.symm.trans ht
    exact (h.turnTaken hturn.2).setRaw .slp _
  · obtain ⟨t', htok, inv⟩ := (h.turnTaken hturn.2).runToken
      (decodeToken (s.stoRead (2 * s.pc)) (s.stoRead (2 * s.pc + 1)))
    cases (hstep.trans htok).symm.trans ht
    exact inv

end Sys2Proof.Machine
end

section
/-! Memory and its map (20_memory.md sections 2 to 5): the guarded accesses, the address decoder by its ranges, the
spaces an instruction changes, and the Storage byte that the next cycle fetches. -/

namespace Sys2Proof.Machine

/-! ## Guarded access -/

/-- Settles O11: the laws of the guarded read and write, inside the space and beyond it. -/
theorem guardedAccess : Obligations.GuardedAccess := by
  intro s a b v
  refine ⟨fun ha => ?_, fun ha => ⟨?_, Frame.memWrite s a v⟩, fun hb => ?_, fun hb => ⟨?_, Frame.stoWrite s b v⟩⟩
  · rw [State.memRead_eq, State.memWrite_eq, if_neg (by omega), if_neg (by omega)]
    exact ⟨rfl, rfl⟩
  · rw [State.memRead_memWrite, if_pos ⟨rfl, ha⟩]
  · rw [State.stoRead_eq, State.stoWrite_eq, if_neg (by omega), if_neg (by omega)]
    exact ⟨rfl, rfl⟩
  · rw [State.stoRead_stoWrite, if_pos ⟨rfl, hb⟩]

/-- Settles O12: the laws of the region-relative read and write, below the region's length and from it on. -/
theorem regionGuard : Obligations.RegionGuard := by
  intro s g off v
  refine ⟨fun hoff => ⟨?_, ?_, Frame.regionWrite s g off v⟩, fun hoff => ?_⟩
  · rw [State.regionRead_eq, if_pos hoff]
  · rw [State.memRead_regionWrite, if_pos ⟨rfl, hoff⟩]
  · rw [State.regionRead_eq, State.regionWrite_eq, if_neg (by omega), if_neg (by omega)]
    exact ⟨rfl, rfl⟩

/-! ## The address decoder -/

/-- The decoder names a region for the addresses from its first one on, as many as it is long (20_memory.md R68). -/
theorem decodeAddress_named_iff (a : Nat) (g : Region) :
    decodeAddress a = .named g ↔ regionAddr g ≤ a ∧ a < regionAddr g + regionLen g := by
  simp [decodeAddress_named, inRegion]

/-- An address of Memory without a name lies before or after every region (20_memory.md R67). -/
theorem decodeAddress_plain_iff (a : Nat) :
    decodeAddress a = .plain ↔ a < 3200 ∧ ∀ g, a < regionAddr g ∨ regionAddr g + regionLen g ≤ a := by
  simp [decodeAddress_plain, inRegion, Classical.or_iff_not_imp_left]

/-- What holds of every region is what holds of the ten of the map (20_memory.md R66). -/
theorem forall_region {p : Region → Prop} :
    (∀ g, p g) ↔ p .stack ∧ p .btns ∧ p .audio ∧ p .icons ∧ p .timer ∧ p .sstate ∧ p .spins ∧ p .video ∧ p .savew ∧
      p .image := by
  refine ⟨fun h => ⟨h _, h _, h _, h _, h _, h _, h _, h _, h _, h _⟩, ?_⟩
  rintro ⟨h1, h2, h3, h4, h5, h6, h7, h8, h9, h10⟩ g
  cases g <;> assumption

/-- Settles O13: the decoder's laws with the first address and the length of each region put in. -/
theorem addressDecoder : Obligations.AddressDecoder := by
  intro a
  simp only [decodeAddress_named_iff, decodeAddress_plain_iff, forall_region, regionAddr, regionLen]
  refine ⟨?_, ?_, ?_, ?_, ?_, ?_, ?_, ?_, ?_, ?_, ?_, decodeAddress_outside a⟩ <;> omega

/-! ## What an instruction changes outside the register file -/

/-- Only `SSET` has an address of Storage in the table (20_memory.md R74). -/
theorem storageWritten_eq_nil {i : Instr} (s : State) (hi : ∀ n, i ≠ .sset n) : storageWritten s i = [] := by
  cases i with
  | sset n => exact absurd rfl (hi n)
  | _ => rfl

/-- Settles O54: `SAVE` changes the durable store alone; every other instruction has its frame, whose bytes are the
table's. -/
theorem onlyListedSpacesChange : Obligations.OnlyListedSpacesChange := by
  intro i s t h
  by_cases hi : i = .save
  · subst hi
    cases h
    exact ⟨fun _ hne => absurd rfl hne, fun _ _ => rfl, fun hne => absurd rfl hne, rfl, rfl, rfl, rfl⟩
  · obtain ⟨t', h', frame⟩ := exec_frame i s hi
    cases h'.symm.trans h
    refine ⟨fun a hne => ?_, fun hsset a => ?_, fun _ => frame.store, frame.labels, frame.name, frame.run, frame.agenda⟩
    · by_contra ha
      exact hne (frame.mem a (mt (mem_bytesWritten s i a).1 ha))
    · exact frame.sto a (by simp [storageWritten_eq_nil s hsset])

/-! ## The store that the next fetch sees -/

theorem Frame.advance (s : State) : Frame s s.advance [.pch, .pcl] [] [] := Frame.setPair s _ _ _

/-- A frame that keeps `SP` and writes no byte of Memory keeps the top of the stack. -/
theorem Frame.top_eq {s t : State} {rs : List Reg} {ss : List Nat} (h : Frame s t rs [] ss) (hsp : Reg.sp ∉ rs) :
    t.top = s.top := by
  rw [State.top, State.topAddr, h.regs .sp hsp, h.mem _ List.not_mem_nil]
  rfl

/-- Everything `SSET` does (44_memory_and_storage_access.md R214). -/
theorem exec_sset_spec (s : State) (n : Byte) :
    ∃ t, exec (.sset n) s = .next t ∧ t.raw .sp = s.raw .sp - 1 ∧
      (s.stp + n.toNat < 65536 → t.stoRead (s.stp + n.toNat) = s.top) ∧ Frame s t [.sp] [] [s.stp + n.toNat] := by
  obtain ⟨-, sp, pop⟩ := s.pop_spec
  refine ⟨s.pop.2.stoWrite (s.stp + n.toNat) s.top, rfl, (State.raw_stoWrite ..).trans sp, fun hn => ?_,
    pop.comp (Frame.stoWrite _ _ _)⟩
  rw [State.stoRead_stoWrite, if_pos ⟨rfl, hn⟩]

/-- The kind of a cycle without a running sleep counter is decided by the opcode byte at `pc` (40_cycle_and_dispatch.md
R149). -/
theorem State.cycleKind_awake {s : State} (hs : s.raw .slp = 0) :
    s.cycleKind = if s.stoRead (2 * s.pc) = 0 then .originReset
      else .executed (s.stoRead (2 * s.pc)) (s.stoRead (2 * s.pc + 1)) := by
  rw [State.cycleKind, if_neg (by simp [hs])]
  rfl

/-- Settles O31: the cycle is the advance and then the store, which leaves `pc` and the token's parameter byte alone. -/
theorem storeToStorageSeenByNextFetch : Obligations.StoreToStorageSeenByNextFetch := by
  intro s n hrun hagenda hslp hdecode hpc haddr
  have advance := Frame.advance s
  have hstp : s.advance.stp = s.stp := advance.pair_eq .sth .stl (by decide) (by decide)
  obtain ⟨t, hexec, -, hstored, store⟩ := exec_sset_spec s.advance n
  rw [hstp, haddr] at store hstored
  have hstep : step s = .next t := by
    rw [step_runToken ⟨hrun, .inl ⟨hagenda, rfl⟩⟩ hslp, hdecode, State.runToken_ok _ (by simp), hexec]
  have hpc' : t.pc = s.pc + 1 := by
    have hkept : t.pc = s.advance.pc := store.pair_eq .pch .pcl (by decide) (by decide)
    rw [hkept, State.pc_advance, Nat.mod_eq_of_lt (by omega)]
  have hslp' : t.raw .slp = 0 := by
    rw [store.regs .slp (by decide), advance.regs .slp (by decide), hslp]
  have hopcode : t.stoRead (2 * (s.pc + 1)) = s.top := by
    rw [hstored (by omega), advance.top_eq (by decide)]
  have hparam : t.stoRead (2 * (s.pc + 1) + 1) = s.stoRead (2 * (s.pc + 1) + 1) := by
    rw [store.sto _ (by simp), advance.sto _ List.not_mem_nil]
  exact ⟨t, hstep, hpc', by rw [State.cycleKind_awake hslp', hpc', hopcode, hparam]⟩

end Sys2Proof.Machine
end

section
/-! The drivers' turns (20_memory.md R78, R79): each writes bytes of its own region, and the serial device keeps to the
protocol of 45_peripheral_instructions.md R230. -/

namespace Sys2Proof.Machine

/-- A driver's turn, whether the engine runs or not. -/
theorem step_drive {s : State} {d : Turn} {g : Region} {rest : List Turn} (ha : s.agenda = d :: rest)
    (hd : d.ownRegion = some g) : step s = .next (State.drive { s with agenda := rest } d) := by
  rw [step_outside ha (Turn.ne_engine hd), outsideTurn_driver _ hd]

/-- A driver's region is one that an agent outside the core may write (20_memory.md R66). -/
theorem Turn.ownRegion_externallyWritten {d : Turn} {g : Region} (hd : d.ownRegion = some g) :
    externallyWritten g = true := by
  cases d <;> cases hd <;> rfl

/-- The byte a frame changes lies in the region that holds its bytes. -/
theorem Frame.decodeAddress_named {s t : State} {g : Region} {rs : List Reg} {ss : List Nat}
    (h : Frame s t rs (List.range' (regionAddr g) (regionLen g)) ss) {a : Nat} (hne : t.memRead a ≠ s.memRead a) :
    decodeAddress a = .named g := by
  by_contra ha
  exact hne (h.mem a fun hmem => ha ((decodeAddress_named_iff a g).2 (List.mem_range'_1.1 hmem)))

/-! ## The serial device's two protocol turns, by the status byte at 529 (45_peripheral_instructions.md R230) -/

theorem State.driven_serialTake_waiting {s : State} (h : s.memRead 529 = 1) :
    s.driven .serialTake = s.regionWrite .sstate 1 0 := if_pos h

theorem State.driven_serialTake_idle {s : State} (h : s.memRead 529 ≠ 1) : s.driven .serialTake = s := if_neg h

theorem State.driven_serialGive_free {s : State} (v : Byte) (h : s.memRead 529 = 0) :
    s.driven (.serialGive v) = (s.regionWrite .sstate 0 v).regionWrite .sstate 1 2 := if_pos h

theorem State.driven_serialGive_idle {s : State} (v : Byte) (h : s.memRead 529 ≠ 0) : s.driven (.serialGive v) = s :=
  if_neg h

/-! ## The turns as writes -/

/-- A driver's turn that is without effect while the engine runs. -/
theorem turnWrites_idle {s : State} {d : Turn} {rest : List Turn} {g : Region} (ha : s.agenda = d :: rest)
    (hd : d.ownRegion = some g) (hr : s.run = .running)
    (he : State.driven { s with agenda := rest } d = { s with agenda := rest }) : TurnWrites s rest [] :=
  turnWrites_nothing ((step_driver ha hd hr).trans (congrArg _ he))

/-- The serial device gives a byte on a free line (45_peripheral_instructions.md R230). -/
theorem turnWrites_serialGive {s : State} {v : Byte} {rest : List Turn} (ha : s.agenda = .serialGive v :: rest)
    (hr : s.run = .running) (hfree : s.memRead 529 = 0) : TurnWrites s rest [(528, v), (529, 2)] := by
  refine ⟨_, step_driver ha rfl hr, ?_, ?_⟩ <;> rw [State.driven_serialGive_free v (by exact hfree)]
  · simp [State.memRead_regionWrite, regionAddr, regionLen]
  · exact (Frame.regionWrite _ .sstate 0 v).comp (Frame.regionWrite _ .sstate 1 2)

/-- Settles O5: the frame of a driver's turn, then one law per driver, with the two cases of each serial turn. -/
theorem driversWriteOnlyTheirRegions : Obligations.DriversWriteOnlyTheirRegions := by
  refine ⟨fun s d g rest ha hd => ?_, fun s k v rest ha hr => ?_, fun s v rest ha hr => ?_, fun s k v rest ha hr => ?_,
    fun s v rest ha hr => ?_, fun s rest ha hr => ⟨fun hst => ?_, fun hst => ?_⟩,
    fun s v rest ha hr => ⟨turnWrites_serialGive ha hr, fun hst => ?_⟩, fun s d g rest => step_driver_stopped⟩
  · have frame := Frame.drive { s with agenda := rest } hd
    exact ⟨Turn.ownRegion_externallyWritten hd, _, step_drive ha hd, fun r => frame.regs r List.not_mem_nil,
      fun a => frame.sto a List.not_mem_nil, frame.run, frame.labels, frame.name, frame.store, frame.agenda,
      fun _ hne => frame.decodeAddress_named hne⟩
  · exact turnWrites_region ha rfl hr k.val v k.isLt rfl
  · exact turnWrites_region ha rfl hr 0 v (by decide) rfl
  · exact turnWrites_region ha rfl hr k.val v k.isLt rfl
  · exact turnWrites_region ha rfl hr 0 v (by decide) rfl
  · exact turnWrites_region ha rfl hr 1 0 (by decide) (State.driven_serialTake_waiting hst)
  · exact turnWrites_idle ha rfl hr (State.driven_serialTake_idle hst)
  · exact turnWrites_idle ha rfl hr (State.driven_serialGive_idle v hst)

end Sys2Proof.Machine
end

section
/-! The opcode map and the register ordinals read in both directions, the decoder inverted, and the obligations of
30_encoding.md sections 1 to 4. -/

namespace Sys2Proof
open Machine (params)

/-! ## The two tables, both ways -/

/-- The opcode bytes of `OPC` are 1 to 0x28, in order (30_encoding.md R104). -/
theorem opc_bytes : params.opc.map (·.1) = (List.range' 1 0x28).map (BitVec.ofNat 8) := rfl

/-- `OPC` assigns exactly the bytes 1 to 0x28 (30_encoding.md R104). -/
theorem Mnemonic.exists_ofOpcode_iff (o : Byte) :
    (∃ m, Mnemonic.ofOpcode o = some m) ↔ o ≠ 0 ∧ o.toNat ≤ 0x28 := by
  have assigned : (∃ m, Mnemonic.ofOpcode o = some m) ↔ o ∈ params.opc.map (·.1) := by
    rw [← Option.isSome_iff_exists, Mnemonic.ofOpcode, Option.isSome_map, List.find?_isSome, List.mem_map]
    simp only [beq_iff_eq]
  rw [assigned, opc_bytes, List.mem_map]
  constructor
  · rintro ⟨k, hk, rfl⟩
    have bounds := List.mem_range'_1.1 hk
    exact ⟨by bv_omega, by rw [BitVec.toNat_ofNat]; omega⟩
  · rintro ⟨h0, h28⟩
    exact ⟨o.toNat, List.mem_range'_1.2 (by bv_omega), by simp⟩

/-- No byte from 0x29 on is assigned (30_encoding.md R111). -/
theorem Mnemonic.ofOpcode_none {o : Byte} (h : 0x29 ≤ o.toNat) : Mnemonic.ofOpcode o = none :=
  Option.eq_none_iff_forall_ne_some.2 fun _ hm => by
    have := ((Mnemonic.exists_ofOpcode_iff o).1 ⟨_, hm⟩).2
    omega

/-- The encoder's opcode byte is the one the decoder read. -/
theorem Mnemonic.ordinal_of_ofOpcode {o : Byte} {m : Mnemonic} (h : Mnemonic.ofOpcode o = some m) : m.ordinal = o := by
  have rows : ∀ row ∈ params.opc, row.2.ordinal = row.1 := by decide
  obtain ⟨row, found, rfl⟩ := Option.map_eq_some_iff.1 h
  exact (rows row (List.mem_of_find?_eq_some found)).trans (by simpa using List.find?_some found)

/-- The ordinal of a slot found by an ordinal is that ordinal (10_state.md R21). -/
theorem Reg.ordinal_of_ofOrdinal {n : Byte} {r : Reg} (h : Reg.ofOrdinal n = some r) : r.ordinal = n := by
  have rows : ∀ row ∈ params.regord, row.2.ordinal = row.1 := by decide
  obtain ⟨row, found, rfl⟩ := Option.map_eq_some_iff.1 h
  exact (rows row (List.mem_of_find?_eq_some found)).trans (by simpa using List.find?_some found)

/-- A register operand read from a parameter byte encodes to that byte (30_encoding.md R107). -/
@[simp] theorem RegRef.param_ofParam (p : Byte) : (RegRef.ofParam p).param = p := by
  unfold RegRef.ofParam
  split
  next r h => exact Reg.ordinal_of_ofOrdinal h
  next => rfl

/-! ## A mnemonic with its parameter -/

/-- Every parameter byte makes a well-formed instruction (30_encoding.md R103). -/
theorem Mnemonic.instr_wf (m : Mnemonic) (p : Byte) : (m.instr p).wf = true := by
  cases m with
  | get | set => exact RegRef.ofParam_wf p
  | _ => rfl

/-- The bytes of a mnemonic with its parameter: the parameter is kept unless the kind is N (30_encoding.md R105, R113). -/
theorem Mnemonic.encode_instr (m : Mnemonic) (p : Byte) :
    encode (m.instr p) = [m.ordinal, if Machine.ignoresParam (m.instr p) then 0 else p] := by
  cases m with
  | get | set => exact congrArg (fun q => [_, q]) (RegRef.param_ofParam p)
  | _ => rfl

/-! ## The decoder -/

/-- An assigned opcode byte is the instruction of its mnemonic with the parameter given (30_encoding.md R103). -/
theorem decodeToken_of_ofOpcode {o : Byte} {m : Mnemonic} (h : Mnemonic.ofOpcode o = some m) (p : Byte) :
    decodeToken o p = .ok (m.instr p) := by
  have h0 : o ≠ 0 := ((Mnemonic.exists_ofOpcode_iff o).1 ⟨m, h⟩).1
  rw [decodeToken, if_neg h0, h]

theorem decodeToken_unassigned {o : Byte} (h : 0x29 ≤ o.toNat) (p : Byte) :
    decodeToken o p = .error (.unassigned o) := by
  have h0 : o ≠ 0 := by
    rintro rfl
    exact absurd h (by decide)
  rw [decodeToken, if_neg h0, Mnemonic.ofOpcode_none h]

/-- All that the decoder can read: `ZERO`, or a mnemonic whose opcode byte it is with the parameter given. -/
theorem decodeToken_cases {o p : Byte} {i : Instr} (h : decodeToken o p = .ok i) :
    (o = 0 ∧ i = .zero) ∨ ∃ m : Mnemonic, m.ordinal = o ∧ i = m.instr p := by
  unfold decodeToken at h
  split at h
  next h0 => exact .inl ⟨h0, (Except.ok.inj h).symm⟩
  next =>
    split at h
    next m hm => exact .inr ⟨m, Mnemonic.ordinal_of_ofOpcode hm, (Except.ok.inj h).symm⟩
    next => cases h

/-- A stream decodes by its first token (30_encoding.md R100, R101). -/
theorem decode_cons_eq_ok_iff (o p : Byte) (rest : List Byte) (i : Instr) :
    decode (o :: p :: rest) = .ok (i, rest) ↔ decodeToken o p = .ok i := by
  rw [decode]
  cases decodeToken o p <;> simp

end Sys2Proof

namespace Sys2Proof.Laws.RoundTrip

/-- The round trip of every instruction, constructor by constructor. -/
theorem holds : ∀ i : Instr, Statement i
  | .zero => zero | .nop => nop | .const p => const p | .get r => get r | .set r => set r
  | .add => add | .sub => sub | .mul => mul | .div => div | .and => and | .or => or | .xor => xor
  | .jump l => jump l | .jeq l => jeq l | .jneq l => jneq l | .jgt l => jgt l | .jgte l => jgte l
  | .jlt l => jlt l | .jlte l => jlte l | .rtn => rtn | .sleep n => sleep n
  | .mget n => mget n | .mset n => mset n | .sget n => sget n | .sset n => sset n
  | .clear c => clear c | .draw c => draw c | .shade => shade | .btn n => btn n | .btnd n => btnd n
  | .tone => tone | .send => send | .recv => recv | .pin k => pin k | .pout k => pout k
  | .save => save | .load => load | .tile => tile | .sprite => sprite | .icon => icon | .print => print

end Sys2Proof.Laws.RoundTrip

namespace Sys2Proof.Machine

/-- Settles O56: forwards by the round trip of each constructor; backwards what was decoded is `ZERO` or a mnemonic with
its parameter, whose bytes are `Mnemonic.encode_instr`. -/
theorem encodeDecodeRoundTrip : Obligations.EncodeDecodeRoundTrip := by
  refine ⟨fun i rest hwf => Laws.RoundTrip.holds i hwf rest, fun o p rest i h => ?_⟩
  obtain ⟨rfl, rfl⟩ | ⟨m, rfl, rfl⟩ := decodeToken_cases ((decode_cons_eq_ok_iff o p rest i).1 h)
  · exact ⟨rfl, fun hkept => absurd hkept (by decide), fun _ => rfl⟩
  · refine ⟨m.instr_wf p, fun hkept => ?_, fun hignored => ?_⟩
    · simp [m.encode_instr, hkept]
    · simp [m.encode_instr, hignored]

/-- Settles O57: the assigned bytes are exactly 1 to 0x28, and each is the ordinal of the mnemonic it decodes to. -/
theorem decodeIsTotal : Obligations.DecodeIsTotal := by
  refine fun o p => ⟨fun h0 => if_pos h0, fun h0 h28 => ?_, fun h29 => decodeToken_unassigned h29 p⟩
  obtain ⟨m, hm⟩ := (Mnemonic.exists_ofOpcode_iff o).2 ⟨h0, h28⟩
  exact ⟨m, Mnemonic.ordinal_of_ofOpcode hm, decodeToken_of_ofOpcode hm p, m.instr_wf p⟩

/-- Settles O58: the decoder evaluated on the nine words. -/
theorem tokenWordsDecode : Obligations.TokenWordsDecode :=
  ⟨rfl, rfl, rfl, rfl, rfl, rfl, rfl, rfl, rfl⟩

end Sys2Proof.Machine
end

section
/-! The emission pass of the assembler, and the obligations of 30_encoding.md section 5. -/

namespace Sys2Proof.Machine

/-- What a line leaves of the label table: a label line records its Address, any other line nothing (30_encoding.md
R123, R124). -/
theorem emitLine_labels (consts : List (List Char × Int)) (e : Emission) (l : SourceLine) :
    (emitLine consts e l).2.labels = e.labels ∨
      (emitLine consts e l).2.labels = LabelTable.record e.labels (BitVec.ofNat 8 e.count) (numberToWord e.line) := by
  unfold emitLine
  split
  · exact .inr rfl
  · exact .inl rfl

theorem emitLine_keeps_map (consts : List (List Char × Int)) (e : Emission) (l : SourceLine)
    (h : LabelTable.wf e.labels = true) : LabelTable.wf (emitLine consts e l).2.labels = true := by
  rcases emitLine_labels consts e l with same | recorded
  · rwa [same]
  · rw [recorded]
    exact LabelTable.wf_record _ _ _ h

/-- The emission pass emits one token a line (30_encoding.md R121). -/
theorem length_emitLines (consts : List (List Char × Int)) (e : Emission) (ls : List SourceLine) :
    (emitLines consts e ls).1.length = ls.length := by
  induction ls generalizing e with
  | nil => rfl
  | cons l ls ih => exact congrArg (· + 1) (ih (emitLine consts e l).2)

theorem emitLines_keeps_map (consts : List (List Char × Int)) (e : Emission) (ls : List SourceLine)
    (h : LabelTable.wf e.labels = true) : LabelTable.wf (emitLines consts e ls).2.labels = true := by
  induction ls generalizing e with
  | nil => exact h
  | cons l ls ih => exact ih (emitLine consts e l).2 (emitLine_keeps_map consts e l h)

/-- Settles O59: both are inductions over the lines, from the empty table. -/
theorem assemblerOutputShape : Obligations.AssemblerOutputShape :=
  fun text => ⟨length_emitLines _ _ (sourceLines text), emitLines_keeps_map _ _ (sourceLines text) rfl⟩

/-- Settles O60: a label line is one `LabelTable.record`, read back by its law. -/
theorem assemblerLabelLine : Obligations.AssemblerLabelLine := by
  intro consts e label param
  have entry : ∀ l, LabelTable.find (emitLine consts e ⟨':' :: label, param⟩).2.labels l =
      if l = BitVec.ofNat 8 e.count then some (numberToWord e.line) else LabelTable.find e.labels l :=
    fun l => LabelTable.find_record e.labels _ l _
  exact ⟨rfl, (entry _).trans (if_pos rfl), if_pos rfl, rfl, fun l hl => (entry l).trans (if_neg hl)⟩

end Sys2Proof.Machine
end

section
/-! The cycle of 40_cycle_and_dispatch.md: the stall and the sleep counter, the three kinds of cycle, the advance, `ZERO`,
and the instructions that do nothing. -/

namespace Sys2Proof

/-- Only opcode byte 0 decodes to `ZERO` (40_cycle_and_dispatch.md R153). -/
theorem decodeToken_eq_zero_iff (o p : Byte) : decodeToken o p = .ok .zero ↔ o = 0 := by
  refine ⟨fun h => ?_, fun h => if_pos h⟩
  obtain ⟨ho, -⟩ | ⟨m, -, hm⟩ := decodeToken_cases h
  · exact ho
  · cases m <;> cases hm

end Sys2Proof

namespace Sys2Proof.Machine

/-! ## The stall -/

/-- Writing back the value a slot holds changes nothing. -/
@[simp] theorem State.setRaw_raw (s : State) (r : Reg) : s.setRaw r (s.raw r) = s := by
  cases r <;> rfl

/-- Of two writes to one slot the later one stays. -/
@[simp] theorem State.setRaw_setRaw_same (s : State) (r : Reg) (v w : Byte) :
    (s.setRaw r v).setRaw r w = s.setRaw r w := by
  cases r <;> rfl

theorem Frame.stall (s : State) : Frame s s.stall [.slp] [] [] := Frame.setRaw s .slp _

/-- A running sleep counter is one lower after a stall (40_cycle_and_dispatch.md R142). -/
theorem State.toNat_slp_stall {s : State} (hs : s.raw .slp ≠ 0) : (s.stall.raw .slp).toNat = (s.raw .slp).toNat - 1 := by
  rw [State.stall, State.raw_setRaw_same]
  bv_omega

theorem State.cycleKind_stall {s : State} (hs : s.raw .slp ≠ 0) : s.cycleKind = .stall := if_pos hs

/-- A run whose first step answers a next state goes on from there. -/
theorem run_succ_of_step {s t : State} (h : step s = .next t) (k : Nat) :
    Host.Core.run Sys2Proof.core (k + 1) s = Host.Core.run Sys2Proof.core k t := by
  have hcore : Sys2Proof.core.step s = .next t := h
  simp only [Host.Core.run, hcore]

/-- Settles O26, by induction on the number of steps: the first is a stall, and the rest start from a counter one
lower. -/
theorem sleepCounterStallsExactly : Obligations.SleepCounterStallsExactly := by
  intro s k hrun hagenda hk
  induction k generalizing s with
  | zero => simp [Host.Core.run]
  | succ k ih =>
    have hs : s.raw .slp ≠ 0 := by bv_omega
    have hslp := State.toNat_slp_stall hs
    have frame := Frame.stall s
    rw [run_succ_of_step (step_stall ⟨hrun, .inl ⟨hagenda, rfl⟩⟩ hs),
      ih s.stall (frame.run.trans hrun) (frame.agenda.trans hagenda) (by omega), hslp, Nat.sub_sub, Nat.add_comm 1 k,
      State.stall, State.setRaw_setRaw_same]

/-! ## The executed cycle -/

/-- The advance on the engine's turn (40_cycle_and_dispatch.md R144). -/
theorem State.EngineTurn.pc_advance {s s' : State} (h : s.EngineTurn s') : s'.advance.pc = (s.pc + 1) % 65536 := by
  rw [State.pc_advance, h.reads.1]

/-- Settles O46: one law of the step for each kind; an opcode byte other than 0 is not `ZERO`, so it runs after the
advance. -/
theorem threeKindsOfCycle : Obligations.ThreeKindsOfCycle := by
  intro s s' h
  refine ⟨fun hs => ?_, fun hs ho => ?_, fun hs ho => ?_⟩
  · have hs' : s'.raw .slp = s.raw .slp := h.reads.2.1 .slp
    refine ⟨State.cycleKind_stall hs, _, step_stall h hs, ?_, Frame.stall s'⟩
    rw [State.toNat_slp_stall (hs' ▸ hs), hs']
  · exact ⟨State.cycleKind_originReset hs ho, _, step_originReset h hs ho, s'.originReset_spec⟩
  · refine ⟨(State.cycleKind_awake hs).trans (if_neg ho), ?_⟩
    rw [step_runToken h hs]
    cases hdecode : decodeToken (s.stoRead (2 * s.pc)) (s.stoRead (2 * s.pc + 1)) with
    | error e => exact s'.runToken_error e
    | ok i =>
      refine s'.runToken_ok ?_
      rintro rfl
      exact ho ((decodeToken_eq_zero_iff _ _).1 hdecode)

/-- Settles O45: the token run on the engine's turn, for `ZERO` and for every other instruction. -/
theorem stepRunsDecodedInstruction : Obligations.StepRunsDecodedInstruction := by
  intro s s' i h hs hdecode
  have hstep : step s = s'.runToken (.ok i) := hdecode ▸ step_runToken h hs
  refine ⟨fun hi => hstep.trans (s'.runToken_ok hi), ?_, h.pc_advance, Frame.advance s'⟩
  rintro rfl
  exact hstep

/-- Settles O47: a byte from 0x29 on decodes to no instruction, and the cycle is the advance alone. -/
theorem unassignedOpcodeIsNop : Obligations.UnassignedOpcodeIsNop := by
  intro s s' h hs ho
  refine ⟨s'.advance, ?_, h.pc_advance, Frame.advance s'⟩
  rw [step_runToken h hs, decodeToken_unassigned ho, s'.runToken_error]

/-! ## `ZERO`, `NOP` and the stubs -/

/-- Settles O44: `ZERO` is the origin reset. -/
theorem zeroReturnsToOrigin : Obligations.ZeroReturnsToOrigin :=
  ⟨fun p => (decodeToken_eq_zero_iff 0 p).2 rfl, fun s => ⟨s.originReset, rfl, s.originReset_spec⟩⟩

/-- Settles O43: the five rows of the opcode map, and the five meanings, each of which answers the state it was
given. -/
theorem nopAndStubsDoNothing : Obligations.NopAndStubsDoNothing :=
  ⟨decodeToken_of_ofOpcode (m := .nop) rfl, decodeToken_of_ofOpcode (m := .tile) rfl,
    decodeToken_of_ofOpcode (m := .sprite) rfl, decodeToken_of_ofOpcode (m := .icon) rfl,
    decodeToken_of_ofOpcode (m := .print) rfl, fun _ => ⟨rfl, rfl, rfl, rfl, rfl⟩⟩

end Sys2Proof.Machine
end

section
/-! `CONST`, `GET` and `SET` (41_stack_and_register_moves.md): each is one push, or one pop and a guarded register write. -/

namespace Sys2Proof.Machine

/-- Settles O16: the meaning is one push of the parameter. -/
theorem constPushesParameter : Obligations.ConstPushesParameter :=
  ⟨decodeToken_of_ofOpcode (m := .const) rfl, fun s p => ⟨s.push p, rfl, s.push_spec p⟩⟩

/-- Everything `GET` does: the operand is read in the state before the push (41_stack_and_register_moves.md R161). -/
theorem exec_get_spec (s : State) (r : RegRef) :
    ∃ t, exec (.get r) s = .next t ∧ t.raw .sp = s.raw .sp + 1 ∧ t.memRead s.freeAddr = s.getRef r ∧
      Frame s t [.sp] [s.freeAddr] [] :=
  ⟨s.push (s.getRef r), rfl, s.push_spec _⟩

/-- Settles O17: of the byte that `GET` pushes, `State.getRef` says that it is `Norm` of the slot, or 0. -/
theorem getPushesRegister : Obligations.GetPushesRegister := by
  refine ⟨decodeToken_of_ofOpcode (m := .get) rfl, fun s r => ?_, fun s n => exec_get_spec s (.absent n)⟩
  obtain ⟨t, hexec, sp, pushed, frame⟩ := exec_get_spec s (.slot r)
  refine ⟨t, hexec, sp, ?_, frame⟩
  rw [pushed]
  exact s.norm_spec _

/-- Settles O18: the pop keeps the flag, so the `Norm` taken after it is that of the state before; the write to the slot
comes last, so it stands also where the slot is `SP`. -/
theorem setPopsIntoRegister : Obligations.SetPopsIntoRegister := by
  refine ⟨decodeToken_of_ofOpcode (m := .set) rfl, fun s r => ?_, fun s n => ⟨s.pop.2, rfl, s.pop_spec.2⟩⟩
  obtain ⟨-, sp, pop⟩ := s.pop_spec
  refine ⟨s.pop.2.setReg r s.top.toNat, rfl, ?_, fun hr => ?_, pop.comp (Frame.setReg _ r _)⟩
  · rw [State.raw_setReg_same, pop.norm_eq (by decide)]
    exact s.norm_spec _
  · rw [State.raw_setReg_ne _ hr.symm, sp]

end Sys2Proof.Machine
end

section
/-! The arithmetic and bitwise instructions (42_arithmetic_and_bitwise.md): each is the common shape with a function of two
bytes, so of each it is left to say which function of the two numbers that is. -/

namespace Sys2Proof.Machine

/-- An instruction of the common shape pushes `Norm` of `f(b, a)` when its function of two bytes is `f` of their numbers;
the flag that `Norm` reads is that of the state before (42_arithmetic_and_bitwise.md R170). -/
theorem pushesNormOf_of_binary {i : Instr} {g : Byte → Byte → Int} {f : Nat → Nat → Int}
    (hexec : ∀ s, exec i s = .next (s.binary g)) (hg : ∀ b a : Byte, g b a = f b.toNat a.toNat) : PushesNormOf i f := by
  intro s
  obtain ⟨sp, result, frame⟩ := s.binary_spec g
  refine ⟨s.binary g, hexec s, sp, ?_, frame⟩
  rw [result, hg]
  exact s.norm_spec _

/-- The quotient of two bytes as a function of their numbers: a byte is the zero divisor when its number is 0
(42_arithmetic_and_bitwise.md R174). -/
theorem divResult_eq (b a : Byte) :
    divResult b a =
      if a.toNat = 0 then 255 else (((2 * b.toNat + a.toNat) / (2 * a.toNat) : Nat) : Int) := by
  have hzero : a = 0 ↔ a.toNat = 0 := BitVec.toNat_inj.symm
  by_cases ha : a.toNat = 0
  · rw [divResult, if_pos (hzero.2 ha), if_pos ha]
    rfl
  · rw [divResult, if_neg (mt hzero.1 ha), if_neg ha]

/-- Settles O19: the three rows of the opcode map, and the common shape, whose functions are the exact sum, difference and
product by definition. -/
theorem addSubMulResult : Obligations.AddSubMulResult :=
  ⟨decodeToken_of_ofOpcode (m := .add) rfl, decodeToken_of_ofOpcode (m := .sub) rfl,
    decodeToken_of_ofOpcode (m := .mul) rfl,
    pushesNormOf_of_binary (fun _ => rfl) fun _ _ => rfl,
    pushesNormOf_of_binary (fun _ => rfl) fun _ _ => rfl,
    pushesNormOf_of_binary (fun _ => rfl) fun _ _ => rfl⟩

/-- Settles O20: the row of the opcode map, and the common shape with `divResult_eq`. The name `divResult` is the
model's function. -/
theorem divResultPushed : Obligations.DivResult :=
  ⟨decodeToken_of_ofOpcode (m := .div) rfl, pushesNormOf_of_binary (fun _ => rfl) divResult_eq⟩

/-- Settles O21: the three rows of the opcode map, and the common shape; bit by bit the bytes combine as their numbers
do. -/
theorem bitwiseResult : Obligations.BitwiseResult :=
  ⟨decodeToken_of_ofOpcode (m := .and) rfl, decodeToken_of_ofOpcode (m := .or) rfl,
    decodeToken_of_ofOpcode (m := .xor) rfl,
    pushesNormOf_of_binary (fun _ => rfl) fun b a => congrArg Int.ofNat (BitVec.toNat_and b a),
    pushesNormOf_of_binary (fun _ => rfl) fun b a => congrArg Int.ofNat (BitVec.toNat_or b a),
    pushesNormOf_of_binary (fun _ => rfl) fun b a => congrArg Int.ofNat (BitVec.toNat_xor b a)⟩

end Sys2Proof.Machine
end

section
/-! The control transfers (43_control_transfer.md): a taken jump in the terms of the label table, the six conditional jumps
as one shape with six comparisons, `RTN`, and `SLEEP`. -/

namespace Sys2Proof.Machine

/-- Where a taken jump goes: the label's entry, or 0 where there is none (43_control_transfer.md R190). -/
theorem State.pc_takeJump (s : State) (l : Byte) :
    (s.takeJump l).pc = ((LabelTable.find s.labels l).map wordToNumber).getD 0 := by
  obtain ⟨-, pc, -⟩ := s.takeJump_spec l
  rw [pc, s.labelTarget_number]

/-- A conditional jump whose comparison of bytes is the comparison `c` of their numbers. Both operands are popped before
the branch, and a jump keeps `SP`; the pops keep `pc` and the labels, so what a jump after them saves and finds is what
stood there before (43_control_transfer.md R192). -/
theorem jumpsWhen_of_jumpIf {i : Byte → Instr} {g : Byte → Byte → Bool} {c : Nat → Nat → Prop}
    (hexec : ∀ l s, exec (i l) s = .next (s.jumpIf g l)) (hg : ∀ b a : Byte, g b a = true ↔ c b.toNat a.toNat) :
    JumpsWhen i c := by
  intro s l
  obtain ⟨-, -, sp, pops⟩ := s.popTwo_spec
  refine ⟨s.jumpIf g l, hexec l s, ?_⟩
  rw [State.jumpIf_eq, ← hg]
  by_cases taken : g s.second s.top = true
  · rw [if_pos taken]
    obtain ⟨rp, -, jump⟩ := s.popTwo.2.2.takeJump_spec l
    refine ⟨(jump.raw_eq .sp (by decide)).trans sp, fun _ => ⟨?_, ?_, pops.comp jump⟩, absurd taken⟩
    · exact rp.trans (pops.pair_eq .pch .pcl (by decide) (by decide))
    · rw [State.pc_takeJump, pops.labels]
  · rw [if_neg taken]
    exact ⟨sp, fun h => absurd h taken, fun _ => pops⟩

/-- Bytes are equal when their numbers are. -/
theorem cmpEq_iff (x y : Byte) : cmpEq x y = true ↔ x.toNat = y.toNat :=
  decide_eq_true_iff.trans BitVec.toNat_inj.symm

theorem cmpNeq_iff (x y : Byte) : cmpNeq x y = true ↔ x.toNat ≠ y.toNat :=
  decide_eq_true_iff.trans BitVec.toNat_inj.symm.not

/-- Settles O23: the six rows of the opcode map, and one shape with six comparisons; the four orders compare the numbers
by definition. -/
theorem conditionalJumps : Obligations.ConditionalJumps :=
  ⟨decodeToken_of_ofOpcode (m := .jeq) rfl, decodeToken_of_ofOpcode (m := .jneq) rfl,
    decodeToken_of_ofOpcode (m := .jgt) rfl, decodeToken_of_ofOpcode (m := .jgte) rfl,
    decodeToken_of_ofOpcode (m := .jlt) rfl, decodeToken_of_ofOpcode (m := .jlte) rfl,
    jumpsWhen_of_jumpIf (fun _ _ => rfl) cmpEq_iff,
    jumpsWhen_of_jumpIf (fun _ _ => rfl) cmpNeq_iff,
    jumpsWhen_of_jumpIf (fun _ _ => rfl) fun _ _ => decide_eq_true_iff,
    jumpsWhen_of_jumpIf (fun _ _ => rfl) fun _ _ => decide_eq_true_iff,
    jumpsWhen_of_jumpIf (fun _ _ => rfl) fun _ _ => decide_eq_true_iff,
    jumpsWhen_of_jumpIf (fun _ _ => rfl) fun _ _ => decide_eq_true_iff⟩

/-- Settles O22: the meaning is one taken jump. -/
theorem jumpSavesAndGoes : Obligations.JumpSavesAndGoes := by
  refine ⟨decodeToken_of_ofOpcode (m := .jump) rfl, fun s l => ?_⟩
  obtain ⟨rp, -, frame⟩ := s.takeJump_spec l
  exact ⟨s.takeJump l, rfl, rp, s.pc_takeJump l, frame⟩

/-- Settles O24: the write of the pair `pc` keeps the slots of `rp`. -/
theorem rtnRestoresReturnPointer : Obligations.RtnRestoresReturnPointer := by
  refine ⟨decodeToken_of_ofOpcode (m := .rtn) rfl, fun s => ?_⟩
  have frame : Frame s s.restoreReturn [.pch, .pcl] [] [] := Frame.setPair s _ _ _
  exact ⟨s.restoreReturn, rfl, s.pair_setPair .pch .pcl _ (by decide),
    frame.pair_eq .rph .rpl (by decide) (by decide), frame⟩

/-- Settles O25: the meaning is one write of `SLP` through `Norm`. -/
theorem sleepLoadsCounter : Obligations.SleepLoadsCounter := by
  refine ⟨decodeToken_of_ofOpcode (m := .sleep) rfl, fun s n => ?_⟩
  refine ⟨s.setReg .slp n.toNat, rfl, ?_, Frame.setReg s .slp _⟩
  rw [State.raw_setReg_same]
  exact s.norm_spec _

end Sys2Proof.Machine
end

section
/-! `MGET`, `MSET`, `SGET`, `SSET` (44_memory_and_storage_access.md): each is one push of a guarded read, or one pop and a
guarded write, at the sum of a pair and the parameter. Beyond the space the read is 0 and the write leaves no trace. -/

namespace Sys2Proof.Machine

/-! ## Beyond Memory and beyond Storage (20_memory.md R62, R63) -/

theorem State.memRead_beyond (s : State) {a : Nat} (ha : 3200 ≤ a) : s.memRead a = 0 := if_neg (Nat.not_lt.2 ha)

theorem State.stoRead_beyond (s : State) {a : Nat} (ha : 65536 ≤ a) : s.stoRead a = 0 := if_neg (Nat.not_lt.2 ha)

/-- The guard of the read, written around it once more, changes nothing. -/
theorem State.memRead_guarded (s : State) (a : Nat) : s.memRead a = if a < 3200 then s.memRead a else 0 :=
  (ite_eq_left_iff.2 fun ha => (s.memRead_beyond (Nat.not_lt.1 ha)).symm).symm

theorem State.stoRead_guarded (s : State) (a : Nat) : s.stoRead a = if a < 65536 then s.stoRead a else 0 :=
  (ite_eq_left_iff.2 fun ha => (s.stoRead_beyond (Nat.not_lt.1 ha)).symm).symm

/-- A frame whose one address of Memory lies beyond Memory changes no byte of it. -/
theorem Frame.of_beyond_mem {s t : State} {rs : List Reg} {ss : List Nat} {a : Nat} (h : Frame s t rs [a] ss)
    (ha : 3200 ≤ a) : Frame s t rs [] ss := by
  refine { h with mem := fun b _ => ?_ }
  by_cases hb : b = a
  · rw [hb, t.memRead_beyond ha, s.memRead_beyond ha]
  · exact h.mem b (by simpa using hb)

/-- A frame whose one address of Storage lies beyond Storage changes no byte of it. -/
theorem Frame.of_beyond_sto {s t : State} {rs : List Reg} {ms : List Nat} {a : Nat} (h : Frame s t rs ms [a])
    (ha : 65536 ≤ a) : Frame s t rs ms [] := by
  refine { h with sto := fun b _ => ?_ }
  by_cases hb : b = a
  · rw [hb, t.stoRead_beyond ha, s.stoRead_beyond ha]
  · exact h.sto b (by simpa using hb)

/-! ## The four instructions -/

/-- Everything `MSET` does (44_memory_and_storage_access.md R212): the pop keeps the pair `mp`, so the address is that of
the state before. -/
theorem exec_mset_spec (s : State) (n : Byte) :
    ∃ t, exec (.mset n) s = .next t ∧ t.raw .sp = s.raw .sp - 1 ∧
      (s.mp + n.toNat < 3200 → t.memRead (s.mp + n.toNat) = s.top) ∧ Frame s t [.sp] [s.mp + n.toNat] [] := by
  obtain ⟨-, sp, pop⟩ := s.pop_spec
  refine ⟨s.pop.2.memWrite (s.mp + n.toNat) s.top, rfl, (State.raw_memWrite ..).trans sp, fun hn => ?_,
    pop.comp (Frame.memWrite _ _ _)⟩
  rw [State.memRead_memWrite, if_pos ⟨rfl, hn⟩]

/-- Settles O27: the meaning is one push of the byte read in the state before, and that read has the guard. -/
theorem mgetPushesMemoryByte : Obligations.MgetPushesMemoryByte := by
  refine ⟨decodeToken_of_ofOpcode (m := .mget) rfl, fun s n => ?_⟩
  rw [← s.memRead_guarded]
  exact ⟨s.push (s.memRead (s.mp + n.toNat)), rfl, s.push_spec _⟩

/-- Settles O28: the law of `MSET`; beyond Memory its frame holds no byte. -/
theorem msetStoresToMemory : Obligations.MsetStoresToMemory := by
  refine ⟨decodeToken_of_ofOpcode (m := .mset) rfl, fun s n => ?_⟩
  obtain ⟨t, hexec, sp, stored, frame⟩ := exec_mset_spec s n
  exact ⟨t, hexec, sp, fun hn => ⟨stored hn, frame⟩, frame.of_beyond_mem⟩

/-- Settles O29: the meaning is one push of the byte read in the state before, and that read has the guard. -/
theorem sgetPushesStorageByte : Obligations.SgetPushesStorageByte := by
  refine ⟨decodeToken_of_ofOpcode (m := .sget) rfl, fun s n => ?_⟩
  rw [← s.stoRead_guarded]
  exact ⟨s.push (s.stoRead (s.stp + n.toNat)), rfl, s.push_spec _⟩

/-- Settles O30: the law of `SSET`; beyond Storage its frame holds no byte. -/
theorem ssetStoresToStorage : Obligations.SsetStoresToStorage := by
  refine ⟨decodeToken_of_ofOpcode (m := .sset) rfl, fun s n => ?_⟩
  obtain ⟨t, hexec, sp, stored, frame⟩ := exec_sset_spec s n
  exact ⟨t, hexec, sp, fun hn => ⟨stored hn, frame⟩, frame.of_beyond_sto⟩

end Sys2Proof.Machine
end

section
/-! The peripheral instructions (45_peripheral_instructions.md): what the display, button, audio, serial and persistence
instructions read and write, each a region-relative access around the pops and the deposits through `Norm`; and the
serial status byte over a driver's turn. -/

namespace Sys2Proof.Machine

/-! ## What several of them share -/

/-- A deposit through `Norm` after a frame that keeps the flag is `Norm` of the state before. -/
theorem Frame.normOf_setReg {s t : State} {rs : List Reg} {ms ss : List Nat} (h : Frame s t rs ms ss)
    (hw : Reg.wrap ∉ rs) (r : Reg) (v : Int) : NormOf s v ((t.setReg r v).raw r) := by
  rw [State.raw_setReg_same, h.norm_eq hw]
  exact s.norm_spec v

/-- A deposit through `Norm` (10_state.md R29). -/
theorem State.normOf_setReg (s : State) (r : Reg) (v : Int) : NormOf s v ((s.setReg r v).raw r) :=
  (Frame.refl s [] [] []).normOf_setReg List.not_mem_nil r v

/-- In either mode `Norm(0)` is 0 (10_state.md R27). -/
@[simp] theorem State.norm_zero (s : State) : s.norm 0 = 0 := by
  obtain ⟨clamp, wrap⟩ := s.norm_spec 0
  refine BitVec.eq_of_toNat_eq (show (s.norm 0).toNat = 0 from ?_)
  by_cases hw : s.raw .wrap = 0
  · have := clamp hw
    omega
  · have := wrap hw
    omega

/-- A condition that 0 does not meet holds of a region-relative read only inside the region (20_memory.md R69). -/
theorem State.regionRead_meets_iff (s : State) (g : Region) (o : Nat) {p : Byte → Prop} (h0 : ¬ p 0) :
    p (s.regionRead g o) ↔ o < regionLen g ∧ p (s.memRead (regionAddr g + o)) := by
  rw [State.regionRead_eq]
  by_cases ho : o < regionLen g
  · rw [if_pos ho, and_iff_right ho]
  · rw [if_neg ho]
    exact iff_of_false h0 fun ⟨h, _⟩ => ho h

/-- The byte at an offset of a region after the whole region is written (20_memory.md R84). -/
theorem State.memRead_regionFill_offset (s : State) (g : Region) (vs : List Byte) {o : Nat} (ho : o < regionLen g) :
    (s.regionFill g vs).memRead (regionAddr g + o) = vs.getD o 0 := by
  rw [State.memRead_regionFill, if_pos ⟨Nat.le_add_right _ _, Nat.add_lt_add_left ho _⟩, Nat.add_sub_cancel_left]

/-- Everything that writing the first two bytes of a region does (20_memory.md R69). -/
theorem State.regionWrite_two_spec (s : State) {g : Region} (hg : 1 < regionLen g) (v w : Byte) :
    ((s.regionWrite g 0 v).regionWrite g 1 w).memRead (regionAddr g) = v ∧
      ((s.regionWrite g 0 v).regionWrite g 1 w).memRead (regionAddr g + 1) = w ∧
      Frame s ((s.regionWrite g 0 v).regionWrite g 1 w) [] [regionAddr g, regionAddr g + 1] [] := by
  refine ⟨?_, ?_, (Frame.regionWrite s g 0 v).comp (Frame.regionWrite _ g 1 w)⟩
  · rw [State.memRead_regionWrite, if_neg (by omega), State.memRead_regionWrite, if_pos ⟨rfl, by omega⟩]
  · rw [State.memRead_regionWrite, if_pos ⟨rfl, hg⟩]

/-- Everything a region-relative write does after a frame that writes no byte (20_memory.md R69). -/
theorem Frame.regionWrite_guarded {s t : State} {rs : List Reg} (h : Frame s t rs [] []) (g : Region) (o : Nat)
    (v : Byte) :
    (o < regionLen g → (t.regionWrite g o v).memRead (regionAddr g + o) = v ∧
      Frame s (t.regionWrite g o v) rs [regionAddr g + o] []) ∧
    (regionLen g ≤ o → Frame s (t.regionWrite g o v) rs [] []) := by
  obtain ⟨inside, beyond⟩ := regionGuard t g o v
  refine ⟨fun ho => ?_, fun ho => ?_⟩
  · obtain ⟨-, written, frame⟩ := inside ho
    exact ⟨written, (h.comp frame).mono (by simp) (by simp) (by simp)⟩
  · obtain ⟨-, dropped⟩ := beyond ho
    rwa [dropped]

/-- What is done with the two popped operands is done with the two bytes on top of the stack (00_scope.md R12). -/
theorem State.popTwo_operands (s : State) (f : Byte → Byte → State → Host.Outcome State Fault Refusal) :
    f s.popTwo.1 s.popTwo.2.1 s.popTwo.2.2 = f s.top s.second s.popTwo.2.2 := by
  obtain ⟨top, second, -, -⟩ := s.popTwo_spec
  rw [top, second]

theorem toNat_level (p : Prop) [Decidable p] : ((level (decide p)).toNat : Int) = if p then 255 else 0 := by
  by_cases h : p <;> simp [level, h]

/-! ## Display -/

/-- Settles O32: the meaning is one fill of the video region with as many bytes as it has. -/
theorem clearFillsVideo : Obligations.ClearFillsVideo := by
  refine ⟨decodeToken_of_ofOpcode (m := .clear) rfl,
    fun s c => ⟨_, rfl, fun off hoff => ?_, Frame.regionFill s .video _⟩⟩
  exact (s.memRead_regionFill_offset .video _ hoff).trans (List.getD_replicate _ hoff)

/-- `DRAW` with its operands named (45_peripheral_instructions.md R222). -/
theorem exec_draw (s : State) (c : Byte) :
    exec (.draw c) s = .next (s.popTwo.2.2.regionWrite .video (s.second.toNat + 32 * s.top.toNat) c) :=
  s.popTwo_operands fun y x t => .next (t.regionWrite .video (pixelOffset x y) c)

/-- Settles O33: after the pops the meaning is one region-relative write, whose guard is on the offset. -/
theorem drawWritesOnePixel : Obligations.DrawWritesOnePixel := by
  refine ⟨decodeToken_of_ofOpcode (m := .draw) rfl, fun s c => ⟨_, exec_draw s c, ?_⟩⟩
  obtain ⟨-, -, sp, pops⟩ := s.popTwo_spec
  exact ⟨(State.raw_regionWrite ..).trans sp, pops.regionWrite_guarded .video _ c⟩

/-- `SHADE` with its operands named; the pops change no byte that it reads (45_peripheral_instructions.md R223). -/
theorem exec_shade (s : State) :
    exec .shade s =
      .next (s.popTwo.2.2.setReg .a (s.regionRead .video (s.second.toNat + 32 * s.top.toNat)).toNat) :=
  s.popTwo_operands fun y x t => .next (t.setReg .a (t.regionRead .video (pixelOffset x y)).toNat)

/-- Settles O34: the pixel is read with the guard of the region, and the pops keep the flag that `Norm` reads. -/
theorem shadeReadsOnePixel : Obligations.ShadeReadsOnePixel := by
  refine ⟨decodeToken_of_ofOpcode (m := .shade) rfl, fun s => ⟨_, exec_shade s, ?_⟩⟩
  obtain ⟨-, -, sp, pops⟩ := s.popTwo_spec
  have pixel : s.regionRead .video (s.second.toNat + 32 * s.top.toNat) =
      if s.second.toNat + 32 * s.top.toNat < 512 then s.memRead (640 + (s.second.toNat + 32 * s.top.toNat)) else 0 :=
    s.regionRead_eq .video _
  rw [← pixel]
  exact ⟨(State.raw_setReg_ne _ (by decide) _).trans sp, pops.normOf_setReg (by decide) .a _,
    pops.comp (Frame.setReg _ .a _)⟩

/-! ## Buttons -/

/-- The level of a button under a condition that 0 does not meet: an index from 3 on reads 0, so it is `LOW` there
(45_peripheral_instructions.md R224, R225). -/
theorem State.buttonLevel_eq (s : State) (n : Nat) {p : Byte → Prop} [DecidablePred p] (h0 : ¬ p 0) :
    ((level (decide (p (s.regionRead .btns n)))).toNat : Int) =
      if n < 3 ∧ p (s.memRead (512 + n)) then 255 else 0 :=
  (toNat_level _).trans (if_congr (s.regionRead_meets_iff .btns n h0) rfl rfl)

/-- Settles O35: each is one deposit of a level, for a pressed button under the condition "not 0", for one just pressed
under "1". -/
theorem buttonsReadIntoA : Obligations.ButtonsReadIntoA := by
  refine ⟨decodeToken_of_ofOpcode (m := .btn) rfl, decodeToken_of_ofOpcode (m := .btnd) rfl,
    fun s n => ⟨_, rfl, ?_, Frame.setReg s .a _⟩, fun s n => ⟨_, rfl, ?_, Frame.setReg s .a _⟩⟩
  · rw [← s.buttonLevel_eq n.toNat (p := (· ≠ 0)) (by decide)]
    exact s.normOf_setReg .a _
  · rw [← s.buttonLevel_eq n.toNat (p := (· = 1)) (by decide)]
    exact s.normOf_setReg .a _

/-! ## Audio -/

/-- `TONE` with its operands named (45_peripheral_instructions.md R226). -/
theorem exec_tone (s : State) :
    exec .tone s = .next ((s.popTwo.2.2.regionWrite .audio 0 s.second).regionWrite .audio 1 s.top) :=
  s.popTwo_operands fun lo hi t => .next ((t.regionWrite .audio 0 hi).regionWrite .audio 1 lo)

/-- Settles O36: after the pops the two bytes of the audio region are written. -/
theorem toneWritesFrequency : Obligations.ToneWritesFrequency := by
  refine ⟨decodeToken_of_ofOpcode (m := .tone) rfl, fun s => ⟨_, exec_tone s, ?_⟩⟩
  obtain ⟨-, -, sp, pops⟩ := s.popTwo_spec
  obtain ⟨high, low, writes⟩ := s.popTwo.2.2.regionWrite_two_spec (g := .audio) (by decide) s.second s.top
  exact ⟨(writes.raw_eq .sp List.not_mem_nil).trans sp, high, low, pops.comp writes⟩

/-! ## Serial, by the status byte at 529 (45_peripheral_instructions.md R230) -/

/-- The line is free once 0 is written to its status byte. -/
theorem State.sstat_freed (s : State) : (s.regionWrite .sstate 1 0).memRead 529 = 0 :=
  (s.memRead_regionWrite .sstate 1 0 529).trans (if_pos (by decide))

/-- The pop reads and writes no serial register, so the line is free or busy as it was before it. -/
theorem exec_send_free {s : State} (h : s.memRead 529 = 0) :
    exec .send s = .next (((s.pop.2.regionWrite .sstate 0 s.top).regionWrite .sstate 1 1).setReg .a 255) := if_pos h

theorem exec_send_busy {s : State} (h : s.memRead 529 ≠ 0) : exec .send s = .next (s.pop.2.setReg .a 0) := if_neg h

theorem exec_recv_waiting {s : State} (h : s.memRead 529 = 2) :
    exec .recv s = .next (((s.setReg .a (s.memRead 528).toNat).setReg .b 255).regionWrite .sstate 1 0) := if_pos h

theorem exec_recv_empty {s : State} (h : s.memRead 529 ≠ 2) : exec .recv s = .next (s.setReg .b 0) := if_neg h

/-- Settles O37: after the pop, on a free line the two serial bytes are written and 255 is deposited; on a busy one 0 is
deposited and no byte written. -/
theorem sendOffersByte : Obligations.SendOffersByte := by
  refine ⟨decodeToken_of_ofOpcode (m := .send) rfl, fun s => ?_⟩
  obtain ⟨-, sp, pop⟩ := s.pop_spec
  by_cases hfree : s.memRead 529 = 0
  · obtain ⟨data, status, writes⟩ := s.pop.2.regionWrite_two_spec (g := .sstate) (by decide) s.top 1
    have offered := pop.comp writes
    refine ⟨_, exec_send_free hfree, ?_, fun _ => ⟨data, status, offered.normOf_setReg (by decide) .a 255,
      offered.comp (Frame.setReg _ .a 255)⟩, absurd hfree⟩
    rw [State.raw_setReg_ne _ (by decide), writes.raw_eq .sp List.not_mem_nil, sp]
  · exact ⟨_, exec_send_busy hfree, (State.raw_setReg_ne _ (by decide) _).trans sp, fun h => absurd h hfree,
      fun _ => ⟨by simp, pop.comp (Frame.setReg _ .a 0)⟩⟩

/-- Settles O38: with a byte waiting two deposits and the write that frees the line, else the deposit of 0 alone. -/
theorem recvTakesByte : Obligations.RecvTakesByte := by
  refine ⟨decodeToken_of_ofOpcode (m := .recv) rfl, fun s => ?_⟩
  by_cases hwait : s.memRead 529 = 2
  · have data := Frame.setReg s .a (s.memRead 528).toNat
    refine ⟨_, exec_recv_waiting hwait, fun _ => ⟨?_, ?_, ?_,
      (data.comp (Frame.setReg _ .b 255)).comp (Frame.regionWrite _ .sstate 1 0)⟩, absurd hwait⟩
    · rw [State.raw_regionWrite, State.raw_setReg_ne _ (by decide)]
      exact s.normOf_setReg .a _
    · rw [State.raw_regionWrite]
      exact data.normOf_setReg (by decide) .b 255
    · exact State.sstat_freed _
  · exact ⟨_, exec_recv_empty hwait, fun h => absurd h hwait, fun _ => ⟨by simp, Frame.setReg s .b 0⟩⟩

/-- Settles O39: `PIN` is one deposit of a guarded read, `POUT` one guarded write after the pop. -/
theorem pinsReadAndDriven : Obligations.PinsReadAndDriven := by
  refine ⟨decodeToken_of_ofOpcode (m := .pin) rfl, decodeToken_of_ofOpcode (m := .pout) rfl,
    fun s k => ⟨_, rfl, ?_, Frame.setReg s .a _⟩, fun s k => ⟨s.pop.2.regionWrite .spins k.toNat s.top, rfl, ?_⟩⟩
  · have byte : s.regionRead .spins k.toNat = if k.toNat < 16 then s.memRead (544 + k.toNat) else 0 :=
      s.regionRead_eq .spins _
    rw [← byte]
    exact s.normOf_setReg .a _
  · obtain ⟨-, sp, pop⟩ := s.pop_spec
    exact ⟨(State.raw_regionWrite ..).trans sp, pop.regionWrite_guarded .spins _ s.top⟩

/-! ## Persistence -/

/-- Settles O40: the meaning is one `set` in the durable store, read back by its law. -/
theorem saveStoresWindow : Obligations.SaveStoresWindow := by
  refine ⟨decodeToken_of_ofOpcode (m := .save) rfl, fun s => ?_⟩
  have entry := fun n => DurableStore.get_set s.store s.name n (s.regionBytes .savew)
  exact ⟨_, s.regionBytes .savew, rfl, (entry _).trans (if_pos rfl), s.length_regionBytes .savew,
    s.getD_regionBytes .savew, fun n hn => (entry n).trans (if_neg hn), rfl⟩

/-- A byte of the window after `LOAD`: that of the entry, or 0 where there is none (45_peripheral_instructions.md R242). -/
theorem exec_load_spec (s : State) :
    ∃ t, exec .load s = .next t ∧
      (∀ k, k < 256 → t.memRead (1152 + k) = ((DurableStore.get s.store s.name).getD []).getD k 0) ∧
      Frame s t [] (List.range' 1152 256) [] :=
  ⟨_, rfl, fun _ hk => s.memRead_regionFill_offset .savew _ hk, Frame.regionFill s .savew _⟩

/-- Settles O41: the law of `LOAD` with and without an entry. -/
theorem loadRestoresWindow : Obligations.LoadRestoresWindow := by
  refine ⟨decodeToken_of_ofOpcode (m := .load) rfl, fun s => ?_⟩
  obtain ⟨t, hexec, window, frame⟩ := exec_load_spec s
  refine ⟨t, hexec, fun w hw _ k hk => ?_, fun hnone k hk => ?_, frame⟩
  · rw [window k hk, hw]
    rfl
  · rw [window k hk, hnone]
    rfl

/-- Settles O42: `LOAD` finds the entry that `SAVE` made, byte by byte. -/
theorem saveThenLoadRestores : Obligations.SaveThenLoadRestores := by
  intro s t u v hsave hname hstore hload a hlow hhigh
  obtain ⟨-, save⟩ := saveStoresWindow
  obtain ⟨-, load⟩ := loadRestoresWindow
  obtain ⟨t', w, hsave', entry, hlength, saved, -, -⟩ := save s
  cases hsave'.symm.trans hsave
  obtain ⟨v', hload', restored, -, -⟩ := load u
  cases hload'.symm.trans hload
  obtain ⟨k, rfl⟩ := Nat.exists_eq_add_of_le hlow
  have hk : k < 256 := by omega
  rw [← hname, ← hstore] at entry
  rw [restored w entry hlength k hk, saved k hk]

/-! ## The serial status byte over a driver's turn -/

/-- Only the two protocol turns of the serial device reach the status byte (45_peripheral_instructions.md R230). -/
theorem State.status_driven_of_ne (s : State) {d : Turn} (htake : d ≠ .serialTake) (hgive : ∀ v, d ≠ .serialGive v) :
    (s.driven d).memRead 529 = s.memRead 529 := by
  cases d with
  | serialTake => exact absurd rfl htake
  | serialGive v => exact absurd rfl (hgive v)
  | button k v => exact (Frame.regionWrite_region s .btns k v).mem 529 (by decide)
  | timer v => exact (Frame.regionWrite_region s .timer 0 v).mem 529 (by decide)
  | pin k v => exact (Frame.regionWrite_region s .spins k v).mem 529 (by decide)
  | serialData v => exact (Frame.regionWrite s .sstate 0 v).mem 529 (by decide)
  | engine | loadProgram | run | pause | reset | powerCycle => rfl

/-- The device takes a byte, and the line is free (45_peripheral_instructions.md R230). -/
theorem State.status_serialTake {s : State} (h : s.memRead 529 = 1) : (s.driven .serialTake).memRead 529 = 0 := by
  rw [State.driven_serialTake_waiting h]
  exact s.sstat_freed

/-- The device gives a byte, and it waits for `RECV` (45_peripheral_instructions.md R230). -/
theorem State.status_serialGive {s : State} (v : Byte) (h : s.memRead 529 = 0) :
    (s.driven (.serialGive v)).memRead 529 = 2 := by
  obtain ⟨-, status, -⟩ := s.regionWrite_two_spec (g := .sstate) (by decide) v 2
  rwa [State.driven_serialGive_free v h]

/-- Every way a driver's turn can leave the status byte while the engine runs (45_peripheral_instructions.md R230). -/
theorem State.status_driven_cases (s : State) (d : Turn) :
    (s.driven d).memRead 529 = s.memRead 529 ∨
      (d = .serialTake ∧ s.memRead 529 = 1 ∧ (s.driven d).memRead 529 = 0) ∨
      ∃ v, d = .serialGive v ∧ s.memRead 529 = 0 ∧ (s.driven d).memRead 529 = 2 := by
  by_cases htake : d = .serialTake
  · subst htake
    by_cases hst : s.memRead 529 = 1
    · exact .inr (.inl ⟨rfl, hst, State.status_serialTake hst⟩)
    · exact .inl (by rw [State.driven_serialTake_idle hst])
  by_cases hgive : ∃ v, d = .serialGive v
  · obtain ⟨v, rfl⟩ := hgive
    by_cases hst : s.memRead 529 = 0
    · exact .inr (.inr ⟨v, rfl, hst, State.status_serialGive v hst⟩)
    · exact .inl (by rw [State.driven_serialGive_idle v hst])
  · exact .inl (s.status_driven_of_ne htake (not_exists.1 hgive))

/-- Settles O6: while the engine is stopped the turn is taken without effect; while it runs the status byte goes one of
the three ways of `State.status_driven_cases`. -/
theorem serialStatusTransitions : Obligations.SerialStatusTransitions := by
  intro s d g rest ha hd
  cases hr : s.run with
  | stopped => exact ⟨_, step_driver_stopped ha hd hr, .inl rfl, nofun, nofun, fun _ => rfl⟩
  | running =>
    refine ⟨_, step_driver ha hd hr, State.status_driven_cases { s with agenda := rest } d, ?_, ?_, nofun⟩
    · rintro - rfl hst
      exact State.status_serialTake (by exact hst)
    · rintro v - rfl hst
      exact State.status_serialGive v (by exact hst)

end Sys2Proof.Machine
end

section
/-! The host's `run()` and `pause()`, the stopped machine, and that nothing raises (60_exceptions.md R250, R268, R269;
40_cycle_and_dispatch.md R146, R152). -/

namespace Sys2Proof.Machine

/-! ## The stopped machine -/

/-- `pause()` of a stopped machine leaves it as it is (60_exceptions.md R269). -/
theorem State.pauseCall_stopped {s : State} (hr : s.run = .stopped) : s.pauseCall = s := by
  rw [State.pauseCall, ← hr]

/-- Only three calls of the host and a power cycle reach a stopped machine (40_cycle_and_dispatch.md R152). -/
theorem State.outsideTurn_stopped {s : State} (hr : s.run = .stopped) (d : Turn) :
    s.outsideTurn d = s ∨ d = .run ∨ d = .reset ∨ d = .powerCycle ∨ ∃ im, d = .loadProgram im := by
  cases d with
  | engine => exact .inl rfl
  | pause => exact .inl (State.pauseCall_stopped hr)
  | button | timer | serialTake | serialGive | serialData | pin => exact .inl (State.drive_stopped hr _)
  | run => exact .inr (.inl rfl)
  | reset => exact .inr (.inr (.inl rfl))
  | powerCycle => exact .inr (.inr (.inr (.inl rfl)))
  | loadProgram im => exact .inr (.inr (.inr (.inr ⟨im, rfl⟩)))

/-- A turn that is only taken changes the agenda alone (log entry 25). -/
theorem State.TurnTaken.restore_agenda {s s' : State} (h : s.TurnTaken s') : { s' with agenda := s.agenda } = s := by
  obtain ⟨-, rfl⟩ | ⟨rest, -, rfl⟩ := h <;> rfl

/-- Settles O4: a turn of the host by its call, and a step of the stopped machine by whose turn it is. -/
theorem runAndPause : Obligations.RunAndPause := by
  refine ⟨fun s rest ha => step_outside ha nofun, fun s rest ha => step_outside ha nofun,
    fun s s' hturn hr => step_stopped hturn hr, fun s t hr ht => ?_⟩
  obtain ⟨d, rest, ha, hd⟩ | ⟨s', hturn⟩ := turn_cases s
  · cases (step_outside ha hd).symm.trans ht
    rw [ha]
    obtain hquiet | rfl | rfl | rfl | ⟨im, rfl⟩ := State.outsideTurn_stopped (s := { s with agenda := rest }) hr d
    · refine .inl ?_
      rw [hquiet, ← ha]
    · exact .inr ⟨rest, .inl rfl⟩
    · exact .inr ⟨rest, .inr (.inl rfl)⟩
    · exact .inr ⟨rest, .inr (.inr (.inl rfl))⟩
    · exact .inr ⟨rest, .inr (.inr (.inr ⟨im, rfl⟩))⟩
  · cases (step_stopped hturn hr).symm.trans ht
    exact .inl hturn.restore_agenda

/-! ## Nothing raises -/

/-- Settles O49: an instruction answers a next state by `exec_platform`, and a step is one of the four kinds of
`step_cases`, of which only the run of a token turns on an instruction. -/
theorem nothingEverStops : Obligations.NothingEverStops := by
  refine ⟨fun i s => (exec_platform i s).imp fun _ h => h.1, fun s => ?_⟩
  obtain ⟨d, rest, -, -, hstep⟩ | ⟨s', -, -, hstep⟩ | ⟨s', -, -, hstep⟩ | ⟨s', -, -, hstep⟩ := step_cases s
  · exact ⟨_, hstep⟩
  · exact ⟨_, hstep⟩
  · exact ⟨_, hstep⟩
  · obtain ⟨t, htok, -⟩ := s'.runToken_platform (decodeToken (s.stoRead (2 * s.pc)) (s.stoRead (2 * s.pc + 1)))
    exact ⟨t, hstep.trans htok⟩

end Sys2Proof.Machine
end

section
/-! Power-on, the load sequence and the explicit reset (70_reset_and_hazards.md section 1): what a cleared machine reads,
and the three turns that clear it. -/

namespace Sys2Proof.Machine

/-! ## What is cleared reads as 0 (10_state.md R50) -/

theorem State.raw_of_regs_zero {s : State} (h : s.regs = Regs.zero) (r : Reg) : s.raw r = 0 := by
  rw [State.raw, h, Regs.get_zero]

theorem State.memRead_of_mem_nil {s : State} (h : s.mem = []) (a : Nat) : s.memRead a = 0 := by
  rw [State.memRead_eq, h]
  exact ite_self _

theorem State.stoRead_of_sto_nil {s : State} (h : s.sto = []) (a : Nat) : s.stoRead a = 0 := by
  rw [State.stoRead_eq, h]
  exact ite_self _

/-! ## The load (70_reset_and_hazards.md R282) -/

/-- A block written from address 0 of a cleared Storage is all it holds; the guarded write drops what does not fit. -/
theorem State.stoRead_stoWriteBlock_of_sto_nil {s : State} (h : s.sto = []) (vs : List Byte) {a : Nat} (ha : a < 65536) :
    (s.stoWriteBlock 0 vs).stoRead a = vs.getD a 0 := by
  rw [State.stoRead_stoWriteBlock, State.stoRead_of_sto_nil h]
  by_cases hin : a < vs.length
  · rw [if_pos (by omega), Nat.sub_zero]
  · rw [if_neg (by omega), List.getD_eq_default _ _ (by omega)]

/-- Storage after a load: the tokens as far as they reach, and the initial bytes from there on. -/
theorem State.stoRead_loadProgram (s : State) (im : Image) {a : Nat} (ha : a < 65536) :
    (s.loadProgram im).stoRead a =
      if a < 2 * im.tokens.length then (serialize im.tokens).getD a 0 else im.storage.getD a 0 := by
  show ((State.stoWriteBlock { s with regs := Regs.zero, mem := [], sto := [] } 0 im.storage).stoWriteBlock 0
    (serialize im.tokens)).stoRead a = _
  rw [State.stoRead_stoWriteBlock, State.stoRead_stoWriteBlock_of_sto_nil rfl _ ha, length_serialize]
  simp [ha]

/-- Settles O2: registers and Memory are cleared; token `i` lies below the end of the tokens, where Storage holds what
was serialised last, and from there on it holds the initial bytes. -/
theorem loadProgramInstallsImage : Obligations.LoadProgramInstallsImage := by
  intro s im rest ha
  refine ⟨_, step_outside ha nofun, State.raw_of_regs_zero rfl, State.memRead_of_mem_nil rfl, fun i hi hfits => ?_,
    fun a htokens hin => ?_, rfl, rfl, rfl, rfl, rfl⟩
  · obtain ⟨opcode, param⟩ := getD_serialize im.tokens i hi
    constructor
    · exact (State.stoRead_loadProgram _ im (by omega)).trans ((if_pos (by omega)).trans opcode)
    · exact (State.stoRead_loadProgram _ im (by omega)).trans ((if_pos (by omega)).trans param)
  · exact (State.stoRead_loadProgram _ im hin).trans (if_neg (by omega))

/-! ## Power-on (70_reset_and_hazards.md R280, R281) -/

/-- A run of the machine right after power-on fetches opcode byte 0 at token 0, and the origin reset finds `pc` already
0 (70_reset_and_hazards.md R281). -/
theorem step_runCall_reset : step State.reset.runCall = .next State.reset.runCall :=
  step_originReset (s' := State.reset.runCall) ⟨rfl, .inl ⟨rfl, rfl⟩⟩ rfl (State.stoRead_of_sto_nil rfl _)

/-- Settles O1: every value is that of the cleared machine, whatever durable store and agenda the power cycle kept. -/
theorem powerOnState : Obligations.PowerOnState := by
  refine ⟨State.raw_of_regs_zero rfl, State.memRead_of_mem_nil rfl, State.stoRead_of_sto_nil rfl, fun _ => rfl, rfl, rfl,
    step_runCall_reset, fun s rest ha => ⟨_, step_outside ha nofun, ?_⟩⟩
  exact ⟨State.raw_of_regs_zero rfl, State.memRead_of_mem_nil rfl, State.stoRead_of_sto_nil rfl, fun _ => rfl, rfl, rfl,
    fun _ => rfl, rfl⟩

/-! ## The explicit reset (70_reset_and_hazards.md R283) -/

/-- Settles O3: `resetCall` writes the register file and Memory, and no other field. -/
theorem hostResetClears : Obligations.HostResetClears := fun _ _ ha =>
  ⟨_, step_outside ha nofun, State.raw_of_regs_zero rfl, State.memRead_of_mem_nil rfl, fun _ => rfl, rfl, rfl, rfl, rfl,
    rfl⟩

end Sys2Proof.Machine
end
